-- ==== Sys2Proof/Word.lean ====
section
/-! DEFINITION. The data sizes of the Luz CPU (00_scope.md R3, R4): words, halfwords, bytes, and register numbers. -/

namespace Sys2Proof

/-- "32-bit quantities are words" (R3). A word is bits; signedness belongs to the instruction that reads it (R4). -/
abbrev Word := BitVec 32

/-- "16-bit quantities are halfwords" (R3). -/
abbrev Half := BitVec 16

/-- "8-bit quantities are bytes" (R3). -/
abbrev Byte := BitVec 8

/-- The number of a general register, R0 to R31 (10_state.md R20). -/
abbrev Reg := Fin 32

end Sys2Proof
end

