-- ==== Sys2Proof/Config.lean ====
section
/-! DEFINITION. The parameters of a run that the platform or the implementation fixes (00_scope.md section 4; 10_state.md
R36). They are plain data; `Machine.State.platform` carries them and no step changes them (log 4), so that a claim holds for
every value of them. Parameters with one legal or one decided value are fixed where they are used: MUL_OPCODE and ERET_OPCODE
in `Decode`, DIV_ZERO and SDIVREM in `Machine.Operands`, `Machine.Arithmetic`. -/

namespace Sys2Proof

/-- `RESERVED_NONZERO` (30_encoding.md R87, D3): what the CPU does with a word whose reserved bits are not all zero. -/
inductive ReservedPolicy where
  /-- The step raises `ReservedBits(instr)`: the spec's default. -/
  | fault
  /-- The reserved bits are not examined. -/
  | ignore
  deriving DecidableEq, Repr

/-- `SMC_POLICY` (20_memory.md R56, D17): whether program text may be written, and where instructions are fetched from. -/
inductive SmcPolicy where
  /-- Stores into program text are refused and fetches outside it fault: the spec's default. -/
  | refuse
  /-- Every store is performed and every fetch reads the current bytes. -/
  | coherent
  deriving DecidableEq, Repr

/-- The marking of a range of `MEM_MAP` (20_memory.md R50): program text or data. -/
inductive RegionKind where
  | text
  | data
  deriving DecidableEq, Repr

/-- One range of `MEM_MAP`: the addresses `base` to `base + size - 1` (20_memory.md R50). -/
structure Region where
  base : Nat
  size : Nat
  kind : RegionKind
  deriving DecidableEq, Repr

/-- The parameters of a run (10_state.md R36). `memMap` is `MEM_MAP` as a list of ranges (R50); where ranges overlap,
which R50 does not provide for, the first one decides (log 29). -/
structure Platform where
  memMap          : List Region
  reservedNonzero : ReservedPolicy
  smcPolicy       : SmcPolicy
  deriving DecidableEq, Repr

end Sys2Proof
end

