-- ==== Sys2Proof/Syntax.lean ====
section
/-! DEFINITION. The instruction set (30_encoding.md R84): `Instr`, one constructor per row of spec/opcode_table.json, in the
table's order; the nine pseudo-instructions (R91); and lines of assembly as structured data (R90). Operand names are the
manual's FIELD names (R7, conflict C3): `rd` is bits 25:21, `rs` bits 20:16, `rt` bits 15:11, whatever their role. -/

namespace Sys2Proof

/-- The 42 machine instructions. A field has the width the encoding gives it, so every term is encodable. -/
inductive Instr where
  | add  (rd rs rt : Reg)
  | sub  (rd rs rt : Reg)
  | mulu (rd rs rt : Reg)
  | mul  (rd rs rt : Reg)
  | divu (rd rs rt : Reg)
  | div  (rd rs rt : Reg)
  | lui  (rd : Reg) (const16 : Half)
  | sll  (rd rs rt : Reg)
  | srl  (rd rs rt : Reg)
  | and  (rd rs rt : Reg)
  | or   (rd rs rt : Reg)
  | nor  (rd rs rt : Reg)
  | xor  (rd rs rt : Reg)
  | lb   (rd rs : Reg) (off16 : Half)
  | lh   (rd rs : Reg) (off16 : Half)
  | lw   (rd rs : Reg) (off16 : Half)
  | lbu  (rd rs : Reg) (off16 : Half)
  | lhu  (rd rs : Reg) (off16 : Half)
  /-- Stores: `rd` is the base, `rs` the data (43_load_store.md R158). -/
  | sb   (rd rs : Reg) (off16 : Half)
  | sh   (rd rs : Reg) (off16 : Half)
  | sw   (rd rs : Reg) (off16 : Half)
  | b    (off26 : BitVec 26)
  /-- `rd` is read (44_control_transfer.md R170). -/
  | jr   (rd : Reg)
  /-- Branches compare `rd` against `rs`, both read (44_control_transfer.md R173). -/
  | beq  (rd rs : Reg) (off16 : Half)
  | bne  (rd rs : Reg) (off16 : Half)
  | bge  (rd rs : Reg) (off16 : Half)
  | bgt  (rd rs : Reg) (off16 : Half)
  | ble  (rd rs : Reg) (off16 : Half)
  | blt  (rd rs : Reg) (off16 : Half)
  | call (const26 : BitVec 26)
  | addi (rd rs : Reg) (const16 : Half)
  | subi (rd rs : Reg) (const16 : Half)
  | bgeu (rd rs : Reg) (off16 : Half)
  | bgtu (rd rs : Reg) (off16 : Half)
  | bleu (rd rs : Reg) (off16 : Half)
  | bltu (rd rs : Reg) (off16 : Half)
  | andi (rd rs : Reg) (const16 : Half)
  | ori  (rd rs : Reg) (const16 : Half)
  | slli (rd rs : Reg) (const16 : Half)
  | srli (rd rs : Reg) (const16 : Half)
  | eret
  | halt
  deriving DecidableEq, Repr

/-- The nine pseudo-instructions (30_encoding.md R91): "provided by the assembler and translated into other instructions". -/
inductive Pseudo where
  | neg  (rd rs : Reg)
  | lli  (rd : Reg) (const16 : Half)
  | li   (rd : Reg) (const32 : Word)
  | move (rd rs : Reg)
  | not  (rd rs : Reg)
  | beqz (rd : Reg) (off16 : Half)
  | bnez (rd : Reg) (off16 : Half)
  | ret
  | nop
  deriving DecidableEq, Repr

/-- The mnemonics of Appendix A: 42 machine instructions and nine pseudo-instructions. Upper and lower case name the same
mnemonic (30_encoding.md R90, conflict C5). -/
inductive Mnemonic where
  | add | addi | sub | subi | neg | mulu | mul | divu | div
  | lui | lli | li | move
  | sll | slli | srl | srli | and | andi | or | ori | not | nor | xor
  | lb | lbu | lh | lhu | lw | sb | sh | sw
  | jr | call | b | beq | beqz | bne | bnez | bge | bgeu | bgt | bgtu | ble | bleu | blt | bltu | ret
  | eret | nop | halt
  deriving DecidableEq, Repr

/-- An operand as it is written (30_encoding.md R90): a register `$r<n>` or `R<n>`, a number, or `offset(register)`. The
numbers are unbounded here; WellFormed checks them. -/
inductive Operand where
  | reg (n : Nat)
  | num (v : Int)
  | mem (offset : Int) (base : Nat)
  deriving DecidableEq, Repr

/-- One line of assembly: a mnemonic and its operands in the order of the manual's syntax line (30_encoding.md R90). -/
structure Line where
  mnemonic : Mnemonic
  operands : List Operand
  deriving DecidableEq, Repr

end Sys2Proof
end

