-- ==== Sys2Proof/WellFormed.lean ====
section
/-! DEFINITION. Which lines of assembly are well-formed: the operand shapes of the manual's syntax lines and the ranges of
30_encoding.md R90 and decision D24 ("an encoder must refuse a value that does not fit the field under the field's
signedness"). A term of `Instr` needs no check: its fields have exactly the encoding's widths, so it is well-formed by type. -/

namespace Sys2Proof

/-- A register number is 0 to 31 (30_encoding.md R90). -/
def regOk (n : Nat) : Bool := decide (n < 32)

/-- `const16`: 0 to 65535 (R90). -/
def const16Ok (v : Int) : Bool := decide (0 ≤ v) && decide (v ≤ 65535)

/-- `off16`: -32768 to 32767 (R90). -/
def off16Ok (v : Int) : Bool := decide (-32768 ≤ v) && decide (v ≤ 32767)

/-- `const26`: 0 to 67108863 (R90). -/
def const26Ok (v : Int) : Bool := decide (0 ≤ v) && decide (v ≤ 67108863)

/-- `off26`: -33554432 to 33554431 (R90). -/
def off26Ok (v : Int) : Bool := decide (-33554432 ≤ v) && decide (v ≤ 33554431)

/-- `const32` of LI: the unsigned range of 32 bits. DEDUCED: R4 gives the range of an N-bit unsigned quantity and R90's list
does not name `const32` (log 25). -/
def const32Ok (v : Int) : Bool := decide (0 ≤ v) && decide (v ≤ 4294967295)

/-- The shapes of the manual's syntax lines. -/
inductive SyntaxForm where
  | rrr       -- Rd, Rs, Rt
  | rrConst16 -- Rd, Rs, const16
  | rConst16  -- Rd, const16
  | rConst32  -- Rd, const32
  | rr        -- Rd, Rs
  | rMem      -- Rd, off16(Rs) or Rs, off16(Rd)
  | rrOff16   -- Rd, Rs, off16
  | rOff16    -- Rd, off16
  | r         -- Rd
  | const26
  | off26
  | noOperand
  deriving DecidableEq, Repr

/-- The syntax line of each mnemonic (Appendix A, as cited in 40_arithmetic.md to 45_system.md). -/
def syntaxForm : Mnemonic → SyntaxForm
  | .add | .sub | .mulu | .mul | .divu | .div => .rrr
  | .sll | .srl | .and | .or | .nor | .xor => .rrr
  | .addi | .subi | .andi | .ori | .slli | .srli => .rrConst16
  | .lui | .lli => .rConst16
  | .li => .rConst32
  | .neg | .move | .not => .rr
  | .lb | .lbu | .lh | .lhu | .lw | .sb | .sh | .sw => .rMem
  | .beq | .bne | .bge | .bgeu | .bgt | .bgtu | .ble | .bleu | .blt | .bltu => .rrOff16
  | .beqz | .bnez => .rOff16
  | .jr => .r
  | .call => .const26
  | .b => .off26
  | .ret | .eret | .nop | .halt => .noOperand

/-- Whether operands have the shape and the ranges of a syntax line. -/
def operandsOk : SyntaxForm → List Operand → Bool
  | .rrr,       [.reg d, .reg s, .reg t] => regOk d && regOk s && regOk t
  | .rrConst16, [.reg d, .reg s, .num c] => regOk d && regOk s && const16Ok c
  | .rConst16,  [.reg d, .num c]         => regOk d && const16Ok c
  | .rConst32,  [.reg d, .num c]         => regOk d && const32Ok c
  | .rr,        [.reg d, .reg s]         => regOk d && regOk s
  | .rMem,      [.reg r, .mem o b]       => regOk r && off16Ok o && regOk b
  | .rrOff16,   [.reg d, .reg s, .num o] => regOk d && regOk s && off16Ok o
  | .rOff16,    [.reg d, .num o]         => regOk d && off16Ok o
  | .r,         [.reg d]                 => regOk d
  | .const26,   [.num c]                 => const26Ok c
  | .off26,     [.num o]                 => off26Ok o
  | .noOperand, []                       => true
  | _, _                                 => false

/-- A line of assembly the encoder accepts (30_encoding.md R90, R92; D24). -/
def Line.wf (l : Line) : Bool := operandsOk (syntaxForm l.mnemonic) l.operands

end Sys2Proof
end

