-- ==== Sys2Proof/Decode.lean ====
section
/-! DEFINITION. From instruction words to `Instr` and back (30_encoding.md). The decoder is total and refuses by name; the
encoder follows R92; the assembler (pseudo-instructions, operand ranges, label offsets) follows R90 to R92. Byte order of an
instruction in memory: 20_memory.md R44. -/

namespace Sys2Proof

/-! ### Fields of an instruction word (R7, R71 to R77) -/

/-- `instr[31:26]`, the opcode (R71). -/
def opcodeField (w : Word) : BitVec 6 := w.extractLsb' 26 6

/-- The register whose number is a 5-bit field (R7). -/
def regOfBits (b : BitVec 5) : Reg := b.toFin

/-- The 5-bit field that holds a register's number. -/
def regBits (r : Reg) : BitVec 5 := BitVec.ofFin r

/-- `rd = instr[25:21]`. -/
def rdField (w : Word) : Reg := regOfBits (w.extractLsb' 21 5)

/-- `rs = instr[20:16]`. -/
def rsField (w : Word) : Reg := regOfBits (w.extractLsb' 16 5)

/-- `rt = instr[15:11]`. -/
def rtField (w : Word) : Reg := regOfBits (w.extractLsb' 11 5)

/-- `imm16 = instr[15:0]`. -/
def imm16Field (w : Word) : Half := w.extractLsb' 0 16

/-- `imm26 = instr[25:0]`. -/
def imm26Field (w : Word) : BitVec 26 := w.extractLsb' 0 26

/-! ### Reserved bits (R87) -/

/-- Reserved bits 10:0 of format RRR (R72). -/
def reservedRRR : Word := 0x000007FF

/-- Reserved bits 20:16 of format RI, LUI (R74). -/
def reservedRI : Word := 0x001F0000

/-- Reserved bits 20:0 of format R, JR (R75). -/
def reservedR : Word := 0x001FFFFF

/-- Reserved bits 25:0 of format N, HALT and ERET (R77). -/
def reservedN : Word := 0x03FFFFFF

/-! ### The decoder -/

/-- Why a word is no instruction. -/
inductive DecodeError where
  /-- One of the 22 unassigned opcodes (R88). -/
  | unassignedOpcode
  /-- A reserved bit is 1 and `RESERVED_NONZERO = fault` (R87). -/
  | reservedBits
  deriving DecidableEq, Repr

/-- `RESERVED_NONZERO` (R87): with `fault` a word with a reserved bit set is refused, with `ignore` the bits are not
examined. -/
def checkReserved (p : ReservedPolicy) (mask w : Word) (i : Instr) : Except DecodeError Instr :=
  match p with
  | .fault  => if w &&& mask = 0 then .ok i else .error .reservedBits
  | .ignore => .ok i

/-- The opcode map (R84): MUL at 000011 (R85, D1, log 11) and ERET at 111110 (R86, D2, log 12). -/
def decode (p : ReservedPolicy) (w : Word) : Except DecodeError Instr :=
  let rd := rdField w
  let rs := rsField w
  let rt := rtField w
  let imm16 := imm16Field w
  let imm26 := imm26Field w
  match (opcodeField w).toNat with
  | 0b000000 => checkReserved p reservedRRR w (.add rd rs rt)
  | 0b000001 => checkReserved p reservedRRR w (.sub rd rs rt)
  | 0b000010 => checkReserved p reservedRRR w (.mulu rd rs rt)
  | 0b000011 => checkReserved p reservedRRR w (.mul rd rs rt)
  | 0b000100 => checkReserved p reservedRRR w (.divu rd rs rt)
  | 0b000101 => checkReserved p reservedRRR w (.div rd rs rt)
  | 0b000110 => checkReserved p reservedRI w (.lui rd imm16)
  | 0b000111 => checkReserved p reservedRRR w (.sll rd rs rt)
  | 0b001000 => checkReserved p reservedRRR w (.srl rd rs rt)
  | 0b001001 => checkReserved p reservedRRR w (.and rd rs rt)
  | 0b001010 => checkReserved p reservedRRR w (.or rd rs rt)
  | 0b001011 => checkReserved p reservedRRR w (.nor rd rs rt)
  | 0b001100 => checkReserved p reservedRRR w (.xor rd rs rt)
  | 0b001101 => .ok (.lb rd rs imm16)
  | 0b001110 => .ok (.lh rd rs imm16)
  | 0b001111 => .ok (.lw rd rs imm16)
  | 0b010000 => .ok (.lbu rd rs imm16)
  | 0b010001 => .ok (.lhu rd rs imm16)
  | 0b010010 => .ok (.sb rd rs imm16)
  | 0b010011 => .ok (.sh rd rs imm16)
  | 0b010100 => .ok (.sw rd rs imm16)
  | 0b010101 => .ok (.b imm26)
  | 0b010110 => checkReserved p reservedR w (.jr rd)
  | 0b010111 => .ok (.beq rd rs imm16)
  | 0b011000 => .ok (.bne rd rs imm16)
  | 0b011001 => .ok (.bge rd rs imm16)
  | 0b011010 => .ok (.bgt rd rs imm16)
  | 0b011011 => .ok (.ble rd rs imm16)
  | 0b011100 => .ok (.blt rd rs imm16)
  | 0b011101 => .ok (.call imm26)
  | 0b100000 => .ok (.addi rd rs imm16)
  | 0b100001 => .ok (.subi rd rs imm16)
  | 0b100010 => .ok (.bgeu rd rs imm16)
  | 0b100011 => .ok (.bgtu rd rs imm16)
  | 0b100100 => .ok (.bleu rd rs imm16)
  | 0b100101 => .ok (.bltu rd rs imm16)
  | 0b101001 => .ok (.andi rd rs imm16)
  | 0b101010 => .ok (.ori rd rs imm16)
  | 0b101011 => .ok (.slli rd rs imm16)
  | 0b101100 => .ok (.srli rd rs imm16)
  | 0b111110 => checkReserved p reservedN w .eret
  | 0b111111 => checkReserved p reservedN w .halt
  | _ => .error .unassignedOpcode

/-! ### Bytes of an instruction in memory (20_memory.md R41, R44) -/

/-- The word whose bytes, lowest address first, are `b0 b1 b2 b3`: little-endian (20_memory.md R41, R44). -/
def wordOfBytes (b0 b1 b2 b3 : Byte) : Word := b3 ++ b2 ++ b1 ++ b0

/-- The halfword whose bytes, lowest address first, are `b0 b1` (20_memory.md R41, DEDUCED there; log 24). -/
def halfOfBytes (b0 b1 : Byte) : Half := b1 ++ b0

/-- The bytes of a word, lowest address first (20_memory.md R41). -/
def bytesOfWord (w : Word) : List Byte :=
  [w.extractLsb' 0 8, w.extractLsb' 8 8, w.extractLsb' 16 8, w.extractLsb' 24 8]

/-- The bytes of a halfword, lowest address first (20_memory.md R41). -/
def bytesOfHalf (h : Half) : List Byte := [h.extractLsb' 0 8, h.extractLsb' 8 8]

/-- Decoding of a byte stream: every instruction is 4 bytes long (R70), and the rest of the list is left. `none` where fewer
than four bytes are there. -/
def decodeBytes (p : ReservedPolicy) : List Byte → Option (Except DecodeError Instr × List Byte)
  | b0 :: b1 :: b2 :: b3 :: rest => some (decode p (wordOfBytes b0 b1 b2 b3), rest)
  | _ => none

/-- The instruction the decoder reads from `w`, whose `nbits` low bits are the table's and whose other bits are 0, laid out as
memory stores it, with the default `RESERVED_NONZERO = fault`. -/
def decodeTableWord (nbits w : Nat) : Option Instr :=
  match decodeBytes .fault (bytesOfWord (BitVec.ofNat 32 (w % 2 ^ nbits))) with
  | some (.ok i, _) => some i
  | _ => none

/-! ### The encoder (R92) -/

/-- The opcode of each instruction (R84). -/
def opcodeOf : Instr → BitVec 6
  | .add _ _ _  => 0b000000
  | .sub _ _ _  => 0b000001
  | .mulu _ _ _ => 0b000010
  | .mul _ _ _  => 0b000011
  | .divu _ _ _ => 0b000100
  | .div _ _ _  => 0b000101
  | .lui _ _    => 0b000110
  | .sll _ _ _  => 0b000111
  | .srl _ _ _  => 0b001000
  | .and _ _ _  => 0b001001
  | .or _ _ _   => 0b001010
  | .nor _ _ _  => 0b001011
  | .xor _ _ _  => 0b001100
  | .lb _ _ _   => 0b001101
  | .lh _ _ _   => 0b001110
  | .lw _ _ _   => 0b001111
  | .lbu _ _ _  => 0b010000
  | .lhu _ _ _  => 0b010001
  | .sb _ _ _   => 0b010010
  | .sh _ _ _   => 0b010011
  | .sw _ _ _   => 0b010100
  | .b _        => 0b010101
  | .jr _       => 0b010110
  | .beq _ _ _  => 0b010111
  | .bne _ _ _  => 0b011000
  | .bge _ _ _  => 0b011001
  | .bgt _ _ _  => 0b011010
  | .ble _ _ _  => 0b011011
  | .blt _ _ _  => 0b011100
  | .call _     => 0b011101
  | .addi _ _ _ => 0b100000
  | .subi _ _ _ => 0b100001
  | .bgeu _ _ _ => 0b100010
  | .bgtu _ _ _ => 0b100011
  | .bleu _ _ _ => 0b100100
  | .bltu _ _ _ => 0b100101
  | .andi _ _ _ => 0b101001
  | .ori _ _ _  => 0b101010
  | .slli _ _ _ => 0b101011
  | .srli _ _ _ => 0b101100
  | .eret       => 0b111110
  | .halt       => 0b111111

/-- Format RRR, reserved bits zero (R72, R87). -/
def packRRR (op : BitVec 6) (rd rs rt : Reg) : Word := op ++ regBits rd ++ regBits rs ++ regBits rt ++ 0#11

/-- Format RRI (R73). -/
def packRRI (op : BitVec 6) (rd rs : Reg) (imm16 : Half) : Word := op ++ regBits rd ++ regBits rs ++ imm16

/-- Format RI, reserved bits zero (R74, R87). -/
def packRI (op : BitVec 6) (rd : Reg) (imm16 : Half) : Word := op ++ regBits rd ++ 0#5 ++ imm16

/-- Format R, reserved bits zero (R75, R87). -/
def packR (op : BitVec 6) (rd : Reg) : Word := op ++ regBits rd ++ 0#21

/-- Format J (R76). -/
def packJ (op : BitVec 6) (imm26 : BitVec 26) : Word := op ++ imm26

/-- Format N, reserved bits zero (R77, R87). -/
def packN (op : BitVec 6) : Word := op ++ 0#26

/-- The word of an instruction (R92): fields by their names, zero in reserved bits. -/
def encode (i : Instr) : Word :=
  let op := opcodeOf i
  match i with
  | .add rd rs rt | .sub rd rs rt | .mulu rd rs rt | .mul rd rs rt | .divu rd rs rt | .div rd rs rt
  | .sll rd rs rt | .srl rd rs rt | .and rd rs rt | .or rd rs rt | .nor rd rs rt | .xor rd rs rt =>
      packRRR op rd rs rt
  | .addi rd rs c | .subi rd rs c | .andi rd rs c | .ori rd rs c | .slli rd rs c | .srli rd rs c
  | .lb rd rs c | .lbu rd rs c | .lh rd rs c | .lhu rd rs c | .lw rd rs c
  | .sb rd rs c | .sh rd rs c | .sw rd rs c
  | .beq rd rs c | .bne rd rs c | .bge rd rs c | .bgeu rd rs c | .bgt rd rs c | .bgtu rd rs c
  | .ble rd rs c | .bleu rd rs c | .blt rd rs c | .bltu rd rs c =>
      packRRI op rd rs c
  | .lui rd c => packRI op rd c
  | .jr rd => packR op rd
  | .b c | .call c => packJ op c
  | .eret | .halt => packN op

/-! ### The assembler (R90 to R92, D24) -/

/-- The manual's expansion of each pseudo-instruction (R91). -/
def expand : Pseudo → List Instr
  | .neg rd rs    => [.sub rd 0 rs]                                              -- R104
  | .lli rd c     => [.ori rd 0 c]                                               -- R121
  | .li rd c      => [.lui rd (c.extractLsb' 16 16), .ori rd rd (c.extractLsb' 0 16)]  -- R122
  | .move rd rs   => [.add rd rs 0]                                              -- R123
  | .not rd rs    => [.nor rd rs rs]                                             -- R138
  | .beqz rd off  => [.beq rd 0 off]                                             -- R174
  | .bnez rd off  => [.bne rd 0 off]                                             -- R176
  | .ret          => [.jr 31]                                                    -- R185
  | .nop          => [.add 0 0 0]                                                -- R191

/-- A register operand, refused when it is not 0 to 31. -/
def asmReg (n : Nat) : Option Reg := if h : n < 32 then some ⟨n, h⟩ else none

/-- `const16`, refused out of range (D24). -/
def asmConst16 (v : Int) : Option Half := if const16Ok v then some (BitVec.ofInt 16 v) else none

/-- `off16`, refused out of range; a negative offset as its two's complement (R92, D24). -/
def asmOff16 (v : Int) : Option Half := if off16Ok v then some (BitVec.ofInt 16 v) else none

/-- `const26`, refused out of range (D24). -/
def asmConst26 (v : Int) : Option (BitVec 26) := if const26Ok v then some (BitVec.ofInt 26 v) else none

/-- `off26`, refused out of range (D24). -/
def asmOff26 (v : Int) : Option (BitVec 26) := if off26Ok v then some (BitVec.ofInt 26 v) else none

/-- `const32` of LI, refused out of range. -/
def asmConst32 (v : Int) : Option Word := if const32Ok v then some (BitVec.ofInt 32 v) else none

/-- `OP Rd, Rs, Rt`. -/
def asmRRR (mk : Reg → Reg → Reg → Instr) : List Operand → Option (List Instr)
  | [.reg d, .reg s, .reg t] => do return [mk (← asmReg d) (← asmReg s) (← asmReg t)]
  | _ => none

/-- `OP Rd, Rs, const16`. -/
def asmRRC (mk : Reg → Reg → Half → Instr) : List Operand → Option (List Instr)
  | [.reg d, .reg s, .num c] => do return [mk (← asmReg d) (← asmReg s) (← asmConst16 c)]
  | _ => none

/-- Loads, `OP Rd, off16(Rs)` (43_load_store.md R158). -/
def asmLoad (mk : Reg → Reg → Half → Instr) : List Operand → Option (List Instr)
  | [.reg d, .mem o s] => do return [mk (← asmReg d) (← asmReg s) (← asmOff16 o)]
  | _ => none

/-- Stores, `OP Rs, off16(Rd)`: the data register comes first in the line and goes to the `rs` field (R158, C3). -/
def asmStore (mk : Reg → Reg → Half → Instr) : List Operand → Option (List Instr)
  | [.reg s, .mem o d] => do return [mk (← asmReg d) (← asmReg s) (← asmOff16 o)]
  | _ => none

/-- `Bcc Rd, Rs, off16`. -/
def asmBranch (mk : Reg → Reg → Half → Instr) : List Operand → Option (List Instr)
  | [.reg d, .reg s, .num o] => do return [mk (← asmReg d) (← asmReg s) (← asmOff16 o)]
  | _ => none

/-- Pseudo-instructions `OP Rd, Rs`. -/
def asmRR (mk : Reg → Reg → Pseudo) : List Operand → Option (List Instr)
  | [.reg d, .reg s] => do return expand (mk (← asmReg d) (← asmReg s))
  | _ => none

/-- Pseudo-instructions `OP Rd, off16`. -/
def asmROff (mk : Reg → Half → Pseudo) : List Operand → Option (List Instr)
  | [.reg d, .num o] => do return expand (mk (← asmReg d) (← asmOff16 o))
  | _ => none

/-- `LUI Rd, const16` and `LLI Rd, const16`. -/
def asmRC16 (mk : Reg → Half → List Instr) : List Operand → Option (List Instr)
  | [.reg d, .num c] => do return mk (← asmReg d) (← asmConst16 c)
  | _ => none

/-- `LI Rd, const32`. -/
def asmLi : List Operand → Option (List Instr)
  | [.reg d, .num c] => do return expand (.li (← asmReg d) (← asmConst32 c))
  | _ => none

/-- `JR Rd`. -/
def asmJr : List Operand → Option (List Instr)
  | [.reg d] => do return [.jr (← asmReg d)]
  | _ => none

/-- `CALL const26`. -/
def asmCall : List Operand → Option (List Instr)
  | [.num c] => do return [.call (← asmConst26 c)]
  | _ => none

/-- `B off26`. -/
def asmB : List Operand → Option (List Instr)
  | [.num o] => do return [.b (← asmOff26 o)]
  | _ => none

/-- A line without operands. -/
def asmNone (is : List Instr) : List Operand → Option (List Instr)
  | [] => some is
  | _ => none

/-- The instructions of a line of assembly (R90 to R92): one, or two for LI; `none` where the operands have not the shape of
the syntax line or do not fit their fields (D24). -/
def assemble (l : Line) : Option (List Instr) :=
  match l.mnemonic with
  | .add  => asmRRR .add l.operands
  | .addi => asmRRC .addi l.operands
  | .sub  => asmRRR .sub l.operands
  | .subi => asmRRC .subi l.operands
  | .neg  => asmRR .neg l.operands
  | .mulu => asmRRR .mulu l.operands
  | .mul  => asmRRR .mul l.operands
  | .divu => asmRRR .divu l.operands
  | .div  => asmRRR .div l.operands
  | .lui  => asmRC16 (fun d c => [.lui d c]) l.operands
  | .lli  => asmRC16 (fun d c => expand (.lli d c)) l.operands
  | .li   => asmLi l.operands
  | .move => asmRR .move l.operands
  | .sll  => asmRRR .sll l.operands
  | .slli => asmRRC .slli l.operands
  | .srl  => asmRRR .srl l.operands
  | .srli => asmRRC .srli l.operands
  | .and  => asmRRR .and l.operands
  | .andi => asmRRC .andi l.operands
  | .or   => asmRRR .or l.operands
  | .ori  => asmRRC .ori l.operands
  | .not  => asmRR .not l.operands
  | .nor  => asmRRR .nor l.operands
  | .xor  => asmRRR .xor l.operands
  | .lb   => asmLoad .lb l.operands
  | .lbu  => asmLoad .lbu l.operands
  | .lh   => asmLoad .lh l.operands
  | .lhu  => asmLoad .lhu l.operands
  | .lw   => asmLoad .lw l.operands
  | .sb   => asmStore .sb l.operands
  | .sh   => asmStore .sh l.operands
  | .sw   => asmStore .sw l.operands
  | .jr   => asmJr l.operands
  | .call => asmCall l.operands
  | .b    => asmB l.operands
  | .beq  => asmBranch .beq l.operands
  | .beqz => asmROff .beqz l.operands
  | .bne  => asmBranch .bne l.operands
  | .bnez => asmROff .bnez l.operands
  | .bge  => asmBranch .bge l.operands
  | .bgeu => asmBranch .bgeu l.operands
  | .bgt  => asmBranch .bgt l.operands
  | .bgtu => asmBranch .bgtu l.operands
  | .ble  => asmBranch .ble l.operands
  | .bleu => asmBranch .bleu l.operands
  | .blt  => asmBranch .blt l.operands
  | .bltu => asmBranch .bltu l.operands
  | .ret  => asmNone (expand .ret) l.operands
  | .eret => asmNone [.eret] l.operands
  | .nop  => asmNone (expand .nop) l.operands
  | .halt => asmNone [.halt] l.operands

/-- What goes into `const26` of a CALL to the byte address `target`: `target / 4` (R90), refused where `target` is no multiple
of 4 or out of CALL's reach. -/
def labelConst26 (target : Int) : Option (BitVec 26) :=
  if target % 4 = 0 then asmConst26 (target / 4) else none

/-- What goes into `off16` of a branch at `addr` to `target`: `(target - address_of_branch) / 4` (R90), refused where the
distance is no multiple of 4 or out of reach. -/
def labelOff16 (addr target : Int) : Option Half :=
  if (target - addr) % 4 = 0 then asmOff16 ((target - addr) / 4) else none

/-- The same for `off26` of a B (R90). -/
def labelOff26 (addr target : Int) : Option (BitVec 26) :=
  if (target - addr) % 4 = 0 then asmOff26 ((target - addr) / 4) else none

end Sys2Proof
end

