-- ==== Sys2Proof/Machine/Flags.lean ====
section
/-! DEFINITION. The Luz CPU has no status flags, no condition codes and no predicate registers (10_state.md R30), so no flag is
computed here. The only tests of the machine are the conditions of its ten conditional branches, which compare two general
registers directly (44_control_transfer.md R173 to R184): `a` is `x[rd]`, `b` is `x[rs]`. -/

namespace Sys2Proof.Machine

/-- BEQ (R173): all 32 bits are equal. -/
def condEq (a b : Word) : Bool := decide (a = b)

/-- BNE (R175). -/
def condNe (a b : Word) : Bool := decide (a ≠ b)

/-- BGE (R177): the signed values. -/
def condGe (a b : Word) : Bool := decide (a.toInt ≥ b.toInt)

/-- BGEU (R178): the unsigned values. -/
def condGeu (a b : Word) : Bool := decide (a.toNat ≥ b.toNat)

/-- BGT (R179). -/
def condGt (a b : Word) : Bool := decide (a.toInt > b.toInt)

/-- BGTU (R180). -/
def condGtu (a b : Word) : Bool := decide (a.toNat > b.toNat)

/-- BLE (R181). -/
def condLe (a b : Word) : Bool := decide (a.toInt ≤ b.toInt)

/-- BLEU (R182). -/
def condLeu (a b : Word) : Bool := decide (a.toNat ≤ b.toNat)

/-- BLT (R183). -/
def condLt (a b : Word) : Bool := decide (a.toInt < b.toInt)

/-- BLTU (R184). -/
def condLtu (a b : Word) : Bool := decide (a.toNat < b.toNat)

end Sys2Proof.Machine
end

