-- ==== Sys2Proof/Machine/Operands.lean ====
section
/-! DEFINITION. How operands are assembled from the fields of an instruction (30_encoding.md R78 to R83; 20_memory.md R45;
44_control_transfer.md R186). Additions are modulo 2^32 (D6, log 17). The machine has no other addressing mode (20_memory.md
R45), and these forms are all there are (the summary table at the end of 30_encoding.md section 3). -/

namespace Sys2Proof.Machine

/-- `const16` of ADDI, SUBI, ANDI, ORI: zero-extended (R78, D26, log 19; R79). -/
def zextConst16 (c : Half) : Word := c.setWidth 32

/-- `off16` and the other signed 16-bit quantities: sign-extended (R82). -/
def sextOff16 (o : Half) : Word := o.signExtend 32

/-- The shift amount in a register operand: its bits 4:0 (R80). -/
def shiftAmountReg (v : Word) : Nat := (v.extractLsb' 0 5).toNat

/-- The shift amount in `const16` of SLLI and SRLI: its bits 4:0; bits 15:5 are ignored (R80). -/
def shiftAmountImm (c : Half) : Nat := (c.extractLsb' 0 5).toNat

/-- `const16` of LUI in the upper halfword, the lower halfword zero (R81). -/
def upperConst16 (c : Half) : Word := c ++ (0 : Half)

/-- The effective address of a load or store: base plus signed byte offset, unscaled, modulo 2^32 (20_memory.md R45). -/
def addrWithOffset (base : Word) (off16 : Half) : Word := base + sextOff16 off16

/-- The target of a conditional branch at `pc`: the branch's own address plus four times the signed offset (R82, D27,
log 18). -/
def branchTarget (pc : Word) (off16 : Half) : Word := pc + (sextOff16 off16 <<< 2)

/-- The target of B at `pc` (R82). -/
def farBranchTarget (pc : Word) (off26 : BitVec 26) : Word := pc + (off26.signExtend 32 <<< 2)

/-- The target of CALL: four times the unsigned constant, absolute (R83). -/
def callTarget (const26 : BitVec 26) : Word := const26.setWidth 32 <<< 2

/-- The unsigned product (40_arithmetic.md R105): the low and the high word. -/
def mulUnsigned (a b : Word) : Word × Word :=
  let p : BitVec 64 := BitVec.ofNat 64 (a.toNat * b.toNat)
  (p.extractLsb' 0 32, p.extractLsb' 32 32)

/-- The signed product (40_arithmetic.md R106): the low and the high word of its 64-bit two's complement. -/
def mulSigned (a b : Word) : Word × Word :=
  let p : BitVec 64 := BitVec.ofInt 64 (a.toInt * b.toInt)
  (p.extractLsb' 0 32, p.extractLsb' 32 32)

/-- The unsigned quotient and remainder for a divisor that is not 0 (40_arithmetic.md R107). -/
def divRemUnsigned (a b : Word) : Word × Word :=
  let q := a.toNat / b.toNat
  (BitVec.ofNat 32 q, BitVec.ofNat 32 (a.toNat - q * b.toNat))

/-- `SDIVREM` (40_arithmetic.md R108), the spec's default for a divisor that is not 0: the quotient truncates toward zero, the
remainder is what is left and has the dividend's sign; both narrowed to 32 bits, so that -2^31 / -1 gives 0x80000000 and 0.
DESIGN CHOICE of the spec (D11, log 13), unsafe for a negative operand. -/
def sdivrem (a b : Word) : Word × Word :=
  let q := a.toInt.tdiv b.toInt
  (BitVec.ofInt 32 q, BitVec.ofInt 32 (a.toInt - q * b.toInt))

end Sys2Proof.Machine
end

