-- ==== Sys2Proof/Machine/ResetValues.lean ====
section
/-! DEFINITION. The values right after reset that the model names because the spec leaves them open (10_state.md R35;
70_reset_and_hazards.md R230, R231): they stand in a file of their own, and no statement rests on them. -/

namespace Sys2Proof.Machine

/-- R1 to R31 after reset. DESIGN CHOICE (log 1), unsafe: the spec gives no value and says it is never zero (R35, D21); this
one is neither zero nor a small number, and a multiple of 4. -/
def resetGpr : Word := 0xA5A5A5A4

/-- The register file after reset: R0 is zero (R21, R35), every other register `resetGpr`. -/
def resetRegs : Vector Word 32 := (Vector.replicate 32 resetGpr).set 0 0

/-- `RESET_PC` of `State.reset`. DESIGN CHOICE (log 2), unsafe: the parameter is OPEN (R231); this is the value every program
of 95_test_vectors.md part 3 is given. -/
def resetVector : Word := 0x00001000

/-- `MEM_MAP` of `State.reset`. DESIGN CHOICE (log 3), unsafe: the parameter is OPEN (20_memory.md R50). Every address of the
32-bit space holds memory; the 4 KiB from `RESET_PC` are program text and the rest is data, which is where the programs of
95_test_vectors.md part 3 have their code (from 0x1000) and their data (at 0x2000). -/
def defaultMemMap : List Region :=
  [⟨0x1000, 0x1000, .text⟩, ⟨0, 0x1000, .data⟩, ⟨0x2000, 0xFFFFE000, .data⟩]

/-- The parameters of `State.reset`: the spec's defaults (00_scope.md section 4; log 9, log 10) and `defaultMemMap`. -/
def defaultPlatform : Platform where
  memMap          := defaultMemMap
  reservedNonzero := .fault
  smcPolicy       := .refuse

end Sys2Proof.Machine
end

