-- ==== Sys2Proof/Machine/State.lean ====
section
/-! DEFINITION. The state of one Luz CPU and its memory (10_state.md, summary table; R31: there is nothing else), how a step
can stop (60_exceptions.md R201), and the state after reset (10_state.md R35). -/

namespace Sys2Proof.Machine

/-- Memory: the bytes that the host or a store has written, as (address, byte) pairs with rising addresses (10_state.md R33).
An unlisted address has no value: reading it faults, as the spec has it for an unwritten byte (R35, R201, D9; log 5). -/
abbrev Memory := List Host.Cell

/-- The first address of a list of cells, if any, is above `a`. -/
def Memory.above (a : Nat) : Memory → Bool
  | [] => true
  | c :: _ => decide (a < c.1)

/-- The canonical form: addresses strictly rise and lie in the 32-bit space (20_memory.md R40). No entry can equal what an
unlisted address reads as, since that is no byte. -/
def Memory.wf : Memory → Bool
  | [] => true
  | c :: m => decide (c.1 < 2 ^ 32) && Memory.above c.1 m && Memory.wf m

/-- The machine. All fields but `platform` are the spec's state; `platform` holds the parameters of the run, which 10_state.md
R36 fixes before it starts (log 4). -/
structure State where
  /-- R0 to R31 (R20). Read and written through `State.readReg` and `State.writeReg` only, which hard-wire R0 (R21). -/
  regs     : Vector Word 32
  /-- The address of the instruction being executed (R25). -/
  pc       : Word
  /-- The internally saved exception return address (R28). `none` is the spec's own state 'unwritten': no exception entry has
  saved an address since reset (R35, 45_system.md R190; log 6). -/
  epc      : Option Word
  /-- The halt line (R29). -/
  halted   : Bool
  /-- The bytes of memory (R33). -/
  mem      : Memory
  /-- The parameters of the run (R36). -/
  platform : Platform
  deriving DecidableEq, Repr

/-- The model faults (60_exceptions.md R201), with their arguments. Each one leaves the state unchanged and ends the run
(R203); none is a claim that the chip traps. All are safe: where the chip goes on, a claim becomes unprovable.
`UnwrittenRegister` is not among them: every register holds a value at reset (log 1). -/
inductive Fault where
  /-- Raised by the fetch of any step when `pc[1:0]` is not 0 (20_memory.md R47, D8). Safe. -/
  | misalignedFetch (pc : Word)
  /-- Raised by the fetch of any step when a byte of the instruction is outside `MEM_MAP` or unwritten, or, under `SMC_POLICY`
  refuse, is not program text (20_memory.md R51, R56, D9, D17). Safe. -/
  | fetchFault (pc : Word)
  /-- Raised by the decode of a word with one of the 22 unassigned opcodes (30_encoding.md R88, D4). Safe. -/
  | illegalInstruction (instr : Word)
  /-- Raised by the decode of a word with a reserved bit set, when `RESERVED_NONZERO` is `fault` (30_encoding.md R87, D3). Safe. -/
  | reservedBits (instr : Word)
  /-- Raised by DIVU and DIV with a zero divisor (40_arithmetic.md R110, D10). Safe. -/
  | divideByZero
  /-- Raised by a halfword access at an odd address and a word access at an address that is no multiple of 4 (20_memory.md R46,
  D7). Safe. -/
  | misalignedData (ea : Word)
  /-- Raised by a load or store with a byte outside `MEM_MAP`, and by a load of an unwritten byte (20_memory.md R51, D9). Safe. -/
  | accessFault (ea : Word)
  /-- Raised by ERET when no exception has saved an address (45_system.md R190, D12). Safe. -/
  | eretWithoutException
  deriving DecidableEq, Repr

/-- What the model gives no meaning to, though it is no condition of the chip. -/
inductive Refusal where
  /-- An instruction without a meaning: used by no arm of `exec` in this model. Safe. -/
  | notModelled (mnemonic : String)
  /-- Raised by a step of a halted CPU: "once set, no further step is possible" (10_state.md R27, R29). It is the normal end
  of a run, no fault (93_implementation_defined.md U28; log 8). Safe. -/
  | halted
  /-- Raised by SB, SH and SW when a byte of the access is program text and `SMC_POLICY` is `refuse` (20_memory.md R56). Safe. -/
  | storeToProgramText (ea : Word)
  deriving DecidableEq, Repr

/-- What the host does before the first step, and what an external reset does (70_reset_and_hazards.md R230, R233): it chooses
the parameters, places the image and gives `RESET_PC`; the halt line is clear and `epc` unwritten. -/
def State.boot (p : Platform) (vector : Word) (image : Memory) : State where
  regs     := resetRegs
  pc       := vector
  epc      := none
  halted   := false
  mem      := image
  platform := p

/-- The machine right after reset (10_state.md R35), with no image placed (log 26). -/
def State.reset : State := State.boot defaultPlatform resetVector []

end Sys2Proof.Machine
end

