-- ==== Sys2Proof/Machine/Ops.lean ====
section
/-! DEFINITION. The named operations over registers, memory, control and exceptions that the meanings are written with
(00_scope.md R7). -/

namespace Sys2Proof.Machine

/-- The outcome of an instruction. -/
abbrev Result := Host.Outcome State Fault Refusal

/-! ### General registers (10_state.md R20 to R24) -/

/-- `x[i]`: R0 always reads as zero (R21). -/
def State.readReg (s : State) (r : Reg) : Word := if r = 0 then 0 else s.regs[r]

/-- `x[i] <- v`: a write to R0 is ignored (R21). -/
def State.writeReg (s : State) (r : Reg) (v : Word) : State :=
  if r = 0 then s else { s with regs := s.regs.set r v }

/-- The two results of MULU, MUL, DIVU, DIV (R24): the first into `x[rd]`, the second into `x[rd + 1]`; with `rd = 31` the
second is lost, with `rd = 0` the first is discarded and the second goes to R1 (D28, log 22). -/
def State.writePair (s : State) (rd : Reg) (first second : Word) : State :=
  if h : rd.val + 1 < 32 then (s.writeReg rd first).writeReg ⟨rd.val + 1, h⟩ second else s.writeReg rd first

/-! ### Program counter (10_state.md R26) -/

/-- `pc <- t`. -/
def State.jump (s : State) (t : Word) : State := { s with pc := t }

/-- `pc <- pc + 4`, modulo 2^32: the end of an instruction that is no control transfer. -/
def State.advance (s : State) : State := s.jump (s.pc + 4)

/-- The end of an instruction with one register result. -/
def finishReg (rd : Reg) (v : Word) (s : State) : Result := .next (s.writeReg rd v).advance

/-- The end of an instruction with two register results. -/
def finishPair (rd : Reg) (v : Word × Word) (s : State) : Result := .next (s.writePair rd v.1 v.2).advance

/-- The end of a conditional branch (44_control_transfer.md R186). -/
def branchIf (taken : Bool) (off16 : Half) (s : State) : Result :=
  .next (if taken then s.jump (branchTarget s.pc off16) else s.advance)

/-! ### The address map (20_memory.md R50, R51) -/

/-- Whether a range holds an address. -/
def regionHolds (g : Region) (a : Nat) : Bool := decide (g.base ≤ a) && decide (a < g.base + g.size)

/-- How an address is marked in a list of ranges, the first range deciding. -/
def kindIn : List Region → Nat → Option RegionKind
  | [], _ => none
  | g :: gs, a => if regionHolds g a then some g.kind else kindIn gs a

/-- How `MEM_MAP` marks an address: `none` where there is no memory. Only the 2^32 addresses exist (20_memory.md R40). -/
def addressKind (p : Platform) (a : Nat) : Option RegionKind := if a < 2 ^ 32 then kindIn p.memMap a else none

/-- `MEM_MAP` contains the address (R51). -/
def isMapped (p : Platform) (a : Nat) : Bool := (addressKind p a).isSome

/-- The address is program text (R56). -/
def isText (p : Platform) (a : Nat) : Bool := decide (addressKind p a = some .text)

/-! ### Memory (20_memory.md R41 to R44) -/

/-- The byte listed at an address. -/
def Memory.read : Memory → Nat → Option Byte
  | [], _ => none
  | c :: m, a => if c.1 = a then some c.2 else Memory.read m a

/-- One byte written; the canonical form is kept. -/
def Memory.write : Memory → Nat → Byte → Memory
  | [], a, v => [(a, v)]
  | c :: m, a, v => if a < c.1 then (a, v) :: c :: m else if c.1 = a then (a, v) :: m else c :: Memory.write m a v

/-- Consecutive bytes written, the first at the lowest address. -/
def Memory.writeBytes : Memory → Nat → List Byte → Memory
  | m, _, [] => m
  | m, a, v :: vs => Memory.writeBytes (Memory.write m a v) (a + 1) vs

/-- The byte an access reads at an address: `none` outside `MEM_MAP` and where nothing has been written. -/
def State.byteAt (s : State) (a : Nat) : Option Byte := if isMapped s.platform a then s.mem.read a else none

/-- The address of a load or store has the alignment its width asks for (20_memory.md R46). -/
def alignedTo (n : Nat) (a : Word) : Bool := decide (a.toNat % n = 0)

/-- `MemRead(ea, 1)` (20_memory.md R42). -/
def memRead8 (s : State) (ea : Word) : Except Fault Byte :=
  match s.byteAt ea.toNat with
  | some b0 => .ok b0
  | none => .error (.accessFault ea)

/-- `MemRead(ea, 2)` (20_memory.md R42, R46). -/
def memRead16 (s : State) (ea : Word) : Except Fault Half :=
  if alignedTo 2 ea then
    match s.byteAt ea.toNat, s.byteAt (ea.toNat + 1) with
    | some b0, some b1 => .ok (halfOfBytes b0 b1)
    | _, _ => .error (.accessFault ea)
  else .error (.misalignedData ea)

/-- The word at four consecutive addresses, `none` unless all four can be read. -/
def State.wordAt (s : State) (a : Nat) : Option Word :=
  match s.byteAt a, s.byteAt (a + 1), s.byteAt (a + 2), s.byteAt (a + 3) with
  | some b0, some b1, some b2, some b3 => some (wordOfBytes b0 b1 b2 b3)
  | _, _, _, _ => none

/-- `MemRead(ea, 4)` (20_memory.md R42, R46). -/
def memRead32 (s : State) (ea : Word) : Except Fault Word :=
  if alignedTo 4 ea then
    match s.wordAt ea.toNat with
    | some w => .ok w
    | none => .error (.accessFault ea)
  else .error (.misalignedData ea)

/-- The addresses of an access of `n` bytes at `a`. -/
def accessRange (a n : Nat) : List Nat := (List.range n).map (a + ·)

/-- Every address of an access of `n` bytes is in `MEM_MAP` (20_memory.md R51). -/
def allMapped (p : Platform) (a n : Nat) : Bool := (accessRange a n).all (isMapped p)

/-- Every address of an access of `n` bytes is program text. -/
def allText (p : Platform) (a n : Nat) : Bool := (accessRange a n).all (isText p)

/-- Some address of an access of `n` bytes is program text. -/
def anyText (p : Platform) (a n : Nat) : Bool := (accessRange a n).any (isText p)

/-- `MemWrite(ea, n, v)` for the `n` bytes of `v`, lowest address first (20_memory.md R43): all checks, in the order of
60_exceptions.md R205, come before any byte is written; then the instruction ends (43_load_store.md R158). -/
def memWrite (ea : Word) (bytes : List Byte) (s : State) : Result :=
  if alignedTo bytes.length ea then
    if allMapped s.platform ea.toNat bytes.length then
      if s.platform.smcPolicy = .refuse ∧ anyText s.platform ea.toNat bytes.length = true then
        .refused (.storeToProgramText ea)
      else .next { s with mem := s.mem.writeBytes ea.toNat bytes }.advance
    else .fault (.accessFault ea)
  else .fault (.misalignedData ea)

/-- The end of a load: the extended datum into `x[rd]`, or the fault of the read (43_load_store.md R158). -/
def finishLoad (rd : Reg) (v : Except Fault Word) (s : State) : Result :=
  match v with
  | .ok w => finishReg rd w s
  | .error f => .fault f

/-! ### Instruction fetch (10_state.md R27; 20_memory.md R44, R47, R51, R56) -/

/-- The fetch from `pc`: alignment first, then presence and, under `SMC_POLICY` refuse, program text for all four bytes
(60_exceptions.md R205; log 10). -/
def fetch (s : State) : Except Fault Word :=
  if alignedTo 4 s.pc then
    if s.platform.smcPolicy = .refuse ∧ allText s.platform s.pc.toNat 4 = false then .error (.fetchFault s.pc)
    else
      match s.wordAt s.pc.toNat with
      | some w => .ok w
      | none => .error (.fetchFault s.pc)
  else .error (.misalignedFetch s.pc)

/-- A range of program text put in front of `MEM_MAP` where the four addresses at `a` are not program text already. -/
def declareText (p : Platform) (a : Nat) : Platform :=
  if allText p a 4 then p else { p with memMap := ⟨a, 4, .text⟩ :: p.memMap }

/-- An instruction word placed where the next step fetches, with what the fetch needs besides: a running CPU, an aligned `pc`,
program text at the four addresses. Where these hold already only the four bytes change. -/
def placeInstruction (s : State) (w : Word) : State :=
  let pc := s.pc &&& 0xFFFFFFFC
  { s with
    halted   := false
    pc       := pc
    mem      := s.mem.writeBytes pc.toNat (bytesOfWord w)
    platform := declareText s.platform pc.toNat }

/-! ### Exceptions and halting (60_exceptions.md R200, R204, R207; 45_system.md R190, R192) -/

/-- TAKING AN EXCEPTION, as far as the spec describes it (60_exceptions.md R200): "this address is saved internally by the CPU
when an exception occurs", and control goes to an exception handler. Which events do so, which address is saved and where the
handler lies are not given (R204: EXC_EVENTS, EXC_EPC, EXC_VECTOR), so they are arguments here, and by decision D12 no step
calls this operation: the conditions of R201 are faults (log 6). That nothing else changes is the model's deduction (log 7).
DESIGN CHOICE (log 33): an entry while `epc` already holds an address overwrites it, which R208 says is not in the source. -/
def enterException (saved handler : Word) (s : State) : State := { s with epc := some saved, pc := handler }

/-- Return from an exception (45_system.md R190): the PC is set to the saved address and nothing else is restored
(60_exceptions.md R207); without a saved address the fault `EretWithoutException`. -/
def returnFromException (s : State) : Result :=
  match s.epc with
  | some a => .next (s.jump a)
  | none => .fault .eretWithoutException

/-- The halt line is asserted and `pc` stays at the HALT (45_system.md R192, D18, log 21). -/
def State.assertHalt (s : State) : State := { s with halted := true }

end Sys2Proof.Machine
end

