-- ==== Sys2Proof/Machine/Arithmetic.lean ====
section
/-! DEFINITION. ADD, ADDI, SUB, SUBI, MULU, MUL, DIVU, DIV (40_arithmetic.md). No instruction has a flag (10_state.md R30). -/

namespace Sys2Proof.Machine

/-- ADD (R100): the sum modulo 2^32. -/
def execAdd (rd rs rt : Reg) (s : State) : Result := finishReg rd (s.readReg rs + s.readReg rt) s

/-- ADDI (R101): the constant is zero-extended. -/
def execAddi (rd rs : Reg) (const16 : Half) (s : State) : Result :=
  finishReg rd (s.readReg rs + zextConst16 const16) s

/-- SUB (R102): the difference modulo 2^32. -/
def execSub (rd rs rt : Reg) (s : State) : Result := finishReg rd (s.readReg rs - s.readReg rt) s

/-- SUBI (R103): the constant is zero-extended. -/
def execSubi (rd rs : Reg) (const16 : Half) (s : State) : Result :=
  finishReg rd (s.readReg rs - zextConst16 const16) s

/-- MULU (R105): the 64-bit unsigned product. -/
def execMulu (rd rs rt : Reg) (s : State) : Result := finishPair rd (mulUnsigned (s.readReg rs) (s.readReg rt)) s

/-- MUL (R106): the 64-bit signed product. -/
def execMul (rd rs rt : Reg) (s : State) : Result := finishPair rd (mulSigned (s.readReg rs) (s.readReg rt)) s

/-- A division: a zero divisor raises `DivideByZero` and writes nothing (R110, D10, log 14). -/
def divideBy (rd : Reg) (divisor : Word) (results : Word × Word) (s : State) : Result :=
  if divisor = 0 then .fault .divideByZero else finishPair rd results s

/-- DIVU (R107): the unsigned quotient and remainder. -/
def execDivu (rd rs rt : Reg) (s : State) : Result :=
  divideBy rd (s.readReg rt) (divRemUnsigned (s.readReg rs) (s.readReg rt)) s

/-- DIV (R108): the signed quotient and remainder by `SDIVREM`. -/
def execDiv (rd rs rt : Reg) (s : State) : Result :=
  divideBy rd (s.readReg rt) (sdivrem (s.readReg rs) (s.readReg rt)) s

end Sys2Proof.Machine
end

