-- ==== Sys2Proof/Machine/Control.lean ====
section
/-! DEFINITION. JR, CALL, B and the ten conditional branches (44_control_transfer.md). There are no delay slots (R186, D19,
log 18); a target that is misaligned or not mapped is reported by the next step's fetch (R186). -/

namespace Sys2Proof.Machine

/-- JR (R170): all 32 bits of the register, low bits included. -/
def execJr (rd : Reg) (s : State) : Result := .next (s.jump (s.readReg rd))

/-- CALL (R171): the address of the next instruction into R31, then the absolute target. -/
def execCall (const26 : BitVec 26) (s : State) : Result :=
  .next ((s.writeReg 31 (s.pc + 4)).jump (callTarget const26))

/-- B (R172). -/
def execB (off26 : BitVec 26) (s : State) : Result := .next (s.jump (farBranchTarget s.pc off26))

/-- BEQ (R173). -/
def execBeq (rd rs : Reg) (off16 : Half) (s : State) : Result :=
  branchIf (condEq (s.readReg rd) (s.readReg rs)) off16 s

/-- BNE (R175). -/
def execBne (rd rs : Reg) (off16 : Half) (s : State) : Result :=
  branchIf (condNe (s.readReg rd) (s.readReg rs)) off16 s

/-- BGE (R177). -/
def execBge (rd rs : Reg) (off16 : Half) (s : State) : Result :=
  branchIf (condGe (s.readReg rd) (s.readReg rs)) off16 s

/-- BGEU (R178). -/
def execBgeu (rd rs : Reg) (off16 : Half) (s : State) : Result :=
  branchIf (condGeu (s.readReg rd) (s.readReg rs)) off16 s

/-- BGT (R179). -/
def execBgt (rd rs : Reg) (off16 : Half) (s : State) : Result :=
  branchIf (condGt (s.readReg rd) (s.readReg rs)) off16 s

/-- BGTU (R180). -/
def execBgtu (rd rs : Reg) (off16 : Half) (s : State) : Result :=
  branchIf (condGtu (s.readReg rd) (s.readReg rs)) off16 s

/-- BLE (R181). -/
def execBle (rd rs : Reg) (off16 : Half) (s : State) : Result :=
  branchIf (condLe (s.readReg rd) (s.readReg rs)) off16 s

/-- BLEU (R182). -/
def execBleu (rd rs : Reg) (off16 : Half) (s : State) : Result :=
  branchIf (condLeu (s.readReg rd) (s.readReg rs)) off16 s

/-- BLT (R183). -/
def execBlt (rd rs : Reg) (off16 : Half) (s : State) : Result :=
  branchIf (condLt (s.readReg rd) (s.readReg rs)) off16 s

/-- BLTU (R184). -/
def execBltu (rd rs : Reg) (off16 : Half) (s : State) : Result :=
  branchIf (condLtu (s.readReg rd) (s.readReg rs)) off16 s

end Sys2Proof.Machine
end

