-- ==== Sys2Proof/Machine/LoadStore.lean ====
section
/-! DEFINITION. LB, LBU, LH, LHU, LW, SB, SH, SW (43_load_store.md). In a load `rs` is the base and `rd` the destination; in a
store `rd` is the base and `rs` the data (R158, conflict C3). -/

namespace Sys2Proof.Machine

/-- The effective address (20_memory.md R45; 43_load_store.md R158): the base register plus the signed offset. -/
def effectiveAddress (base : Reg) (off16 : Half) (s : State) : Word := addrWithOffset (s.readReg base) off16

/-- LB (R150): the byte, sign-extended. -/
def execLb (rd rs : Reg) (off16 : Half) (s : State) : Result :=
  finishLoad rd ((memRead8 s (effectiveAddress rs off16 s)).map (BitVec.signExtend 32)) s

/-- LBU (R151): the byte, zero-extended. -/
def execLbu (rd rs : Reg) (off16 : Half) (s : State) : Result :=
  finishLoad rd ((memRead8 s (effectiveAddress rs off16 s)).map (BitVec.setWidth 32)) s

/-- LH (R152): the halfword, sign-extended. -/
def execLh (rd rs : Reg) (off16 : Half) (s : State) : Result :=
  finishLoad rd ((memRead16 s (effectiveAddress rs off16 s)).map (BitVec.signExtend 32)) s

/-- LHU (R153): the halfword, zero-extended. -/
def execLhu (rd rs : Reg) (off16 : Half) (s : State) : Result :=
  finishLoad rd ((memRead16 s (effectiveAddress rs off16 s)).map (BitVec.setWidth 32)) s

/-- LW (R154). -/
def execLw (rd rs : Reg) (off16 : Half) (s : State) : Result :=
  finishLoad rd (memRead32 s (effectiveAddress rs off16 s)) s

/-- SB (R155): bits 7:0 of the data register. -/
def execSb (rd rs : Reg) (off16 : Half) (s : State) : Result :=
  memWrite (effectiveAddress rd off16 s) [(s.readReg rs).extractLsb' 0 8] s

/-- SH (R156): bits 15:0 of the data register. -/
def execSh (rd rs : Reg) (off16 : Half) (s : State) : Result :=
  memWrite (effectiveAddress rd off16 s) (bytesOfHalf ((s.readReg rs).extractLsb' 0 16)) s

/-- SW (R157). -/
def execSw (rd rs : Reg) (off16 : Half) (s : State) : Result :=
  memWrite (effectiveAddress rd off16 s) (bytesOfWord (s.readReg rs)) s

end Sys2Proof.Machine
end

