-- ==== Sys2Proof/Machine/ShiftLogic.lean ====
section
/-! DEFINITION. LUI (41_immediate_and_move.md R120) and SLL, SLLI, SRL, SRLI, AND, ANDI, OR, ORI, NOR, XOR
(42_shift_and_logic.md). Both shifts are logical; there is no arithmetic right shift. -/

namespace Sys2Proof.Machine

/-- LUI (R120): the old value of `x[rd]` is not used. -/
def execLui (rd : Reg) (const16 : Half) (s : State) : Result := finishReg rd (upperConst16 const16) s

/-- SLL (R130). -/
def execSll (rd rs rt : Reg) (s : State) : Result :=
  finishReg rd (s.readReg rs <<< shiftAmountReg (s.readReg rt)) s

/-- SLLI (R131). -/
def execSlli (rd rs : Reg) (const16 : Half) (s : State) : Result :=
  finishReg rd (s.readReg rs <<< shiftAmountImm const16) s

/-- SRL (R132). -/
def execSrl (rd rs rt : Reg) (s : State) : Result :=
  finishReg rd (s.readReg rs >>> shiftAmountReg (s.readReg rt)) s

/-- SRLI (R133). -/
def execSrli (rd rs : Reg) (const16 : Half) (s : State) : Result :=
  finishReg rd (s.readReg rs >>> shiftAmountImm const16) s

/-- AND (R134). -/
def execAnd (rd rs rt : Reg) (s : State) : Result := finishReg rd (s.readReg rs &&& s.readReg rt) s

/-- ANDI (R135): the immediate is zero-extended. -/
def execAndi (rd rs : Reg) (const16 : Half) (s : State) : Result :=
  finishReg rd (s.readReg rs &&& zextConst16 const16) s

/-- OR (R136). -/
def execOr (rd rs rt : Reg) (s : State) : Result := finishReg rd (s.readReg rs ||| s.readReg rt) s

/-- ORI (R137): the immediate is zero-extended. -/
def execOri (rd rs : Reg) (const16 : Half) (s : State) : Result :=
  finishReg rd (s.readReg rs ||| zextConst16 const16) s

/-- NOR (R139). -/
def execNor (rd rs rt : Reg) (s : State) : Result := finishReg rd (~~~(s.readReg rs ||| s.readReg rt)) s

/-- XOR (R140). -/
def execXor (rd rs rt : Reg) (s : State) : Result := finishReg rd (s.readReg rs ^^^ s.readReg rt) s

end Sys2Proof.Machine
end

