-- ==== Sys2Proof/Machine/System.lean ====
section
/-! DEFINITION. ERET and HALT (45_system.md). The machine has one mode, so neither checks a privilege (60_exceptions.md R209). -/

namespace Sys2Proof.Machine

/-- ERET (R190). -/
def execEret (s : State) : Result := returnFromException s

/-- HALT (R192). -/
def execHalt (s : State) : Result := .next s.assertHalt

end Sys2Proof.Machine
end

