-- ==== Sys2Proof/Machine/Dispatch.lean ====
section
/-! DEFINITION. One arm per instruction, each one direct call of its meaning (10_state.md R27: "execute the instruction's rule"). -/

namespace Sys2Proof.Machine

def exec (i : Instr) (s : State) : Host.Outcome State Fault Refusal :=
  match i with
  | .add rd rs rt => Sys2Proof.Machine.execAdd rd rs rt s
  | .sub rd rs rt => Sys2Proof.Machine.execSub rd rs rt s
  | .mulu rd rs rt => Sys2Proof.Machine.execMulu rd rs rt s
  | .mul rd rs rt => Sys2Proof.Machine.execMul rd rs rt s
  | .divu rd rs rt => Sys2Proof.Machine.execDivu rd rs rt s
  | .div rd rs rt => Sys2Proof.Machine.execDiv rd rs rt s
  | .lui rd c => Sys2Proof.Machine.execLui rd c s
  | .sll rd rs rt => Sys2Proof.Machine.execSll rd rs rt s
  | .srl rd rs rt => Sys2Proof.Machine.execSrl rd rs rt s
  | .and rd rs rt => Sys2Proof.Machine.execAnd rd rs rt s
  | .or rd rs rt => Sys2Proof.Machine.execOr rd rs rt s
  | .nor rd rs rt => Sys2Proof.Machine.execNor rd rs rt s
  | .xor rd rs rt => Sys2Proof.Machine.execXor rd rs rt s
  | .lb rd rs off => Sys2Proof.Machine.execLb rd rs off s
  | .lh rd rs off => Sys2Proof.Machine.execLh rd rs off s
  | .lw rd rs off => Sys2Proof.Machine.execLw rd rs off s
  | .lbu rd rs off => Sys2Proof.Machine.execLbu rd rs off s
  | .lhu rd rs off => Sys2Proof.Machine.execLhu rd rs off s
  | .sb rd rs off => Sys2Proof.Machine.execSb rd rs off s
  | .sh rd rs off => Sys2Proof.Machine.execSh rd rs off s
  | .sw rd rs off => Sys2Proof.Machine.execSw rd rs off s
  | .b off => Sys2Proof.Machine.execB off s
  | .jr rd => Sys2Proof.Machine.execJr rd s
  | .beq rd rs off => Sys2Proof.Machine.execBeq rd rs off s
  | .bne rd rs off => Sys2Proof.Machine.execBne rd rs off s
  | .bge rd rs off => Sys2Proof.Machine.execBge rd rs off s
  | .bgt rd rs off => Sys2Proof.Machine.execBgt rd rs off s
  | .ble rd rs off => Sys2Proof.Machine.execBle rd rs off s
  | .blt rd rs off => Sys2Proof.Machine.execBlt rd rs off s
  | .call c => Sys2Proof.Machine.execCall c s
  | .addi rd rs c => Sys2Proof.Machine.execAddi rd rs c s
  | .subi rd rs c => Sys2Proof.Machine.execSubi rd rs c s
  | .bgeu rd rs off => Sys2Proof.Machine.execBgeu rd rs off s
  | .bgtu rd rs off => Sys2Proof.Machine.execBgtu rd rs off s
  | .bleu rd rs off => Sys2Proof.Machine.execBleu rd rs off s
  | .bltu rd rs off => Sys2Proof.Machine.execBltu rd rs off s
  | .andi rd rs c => Sys2Proof.Machine.execAndi rd rs c s
  | .ori rd rs c => Sys2Proof.Machine.execOri rd rs c s
  | .slli rd rs c => Sys2Proof.Machine.execSlli rd rs c s
  | .srli rd rs c => Sys2Proof.Machine.execSrli rd rs c s
  | .eret => Sys2Proof.Machine.execEret s
  | .halt => Sys2Proof.Machine.execHalt s

end Sys2Proof.Machine
end

