-- ==== Sys2Proof/Machine/Step.lean ====
section
/-! DEFINITION. The step (10_state.md R27), and where the next instruction is placed. -/

namespace Sys2Proof.Machine

/-- One step (R27): no step of a halted CPU; fetch; decode by the opcode; execute. The instruction's own meaning advances `pc`
(R26). -/
def step (s : State) : Host.Outcome State Fault Refusal :=
  if s.halted then .refused .halted
  else
    match fetch s with
    | .error f => .fault f
    | .ok w =>
      match decode s.platform.reservedNonzero w with
      | .error .unassignedOpcode => .fault (.illegalInstruction w)
      | .error .reservedBits => .fault (.reservedBits w)
      | .ok i => exec i s

/-- The instruction whose `nbits` low bits are those of `w`, all other bits 0, stored where the next step fetches (log 26). -/
def State.withFetchWord (s : State) (nbits w : Nat) : State := placeInstruction s (BitVec.ofNat 32 (w % 2 ^ nbits))

end Sys2Proof.Machine
end

