-- ==== Sys2Proof/Machine/AsmText.lean ====
section
/-! DEFINITION. Assembly as text, as far as the source shows it (30_encoding.md R90): comments, mnemonics in either case, the
two spellings of a register, decimal numbers, names given by `.define`, memory operands. Text is a list of characters. What R90
does not show (other bases, expressions, labels, other directives) is refused. The CPU never sees any of this (log 25). -/

namespace Sys2Proof

/-- A text of one line. -/
abbrev Text := List Char

/-- The names given a value by `.define` so far, the latest first. DESIGN CHOICE (log 32): where a name is defined twice the latest
value counts, as the source says nothing of it (N4). -/
abbrev Names := List (Text × Int)

/-- A space or a tab. -/
def isBlank (c : Char) : Bool := c == ' ' || c == '\t'

/-- Without the blanks at both ends. -/
def trimBlanks (t : Text) : Text := ((t.dropWhile isBlank).reverse.dropWhile isBlank).reverse

/-- "A comment starts with `#` and runs to the end of the line." -/
def stripComment (t : Text) : Text := t.takeWhile (· != '#')

/-- The pieces between separators. -/
def splitAt (sep : Char) : Text → List Text
  | [] => [[]]
  | c :: cs =>
    if c == sep then [] :: splitAt sep cs
    else
      match splitAt sep cs with
      | [] => [[c]]
      | p :: ps => (c :: p) :: ps

/-- The text before the first separator, and the text after it where there is one. -/
def cutAt (sep : Char) : Text → Text × Option Text
  | [] => ([], none)
  | c :: cs => if c == sep then ([], some cs) else ((c :: (cutAt sep cs).1), (cutAt sep cs).2)

/-- The value of a decimal digit. -/
def digitOf (c : Char) : Option Nat := if 48 ≤ c.toNat ∧ c.toNat ≤ 57 then some (c.toNat - 48) else none

/-- Digits continued from a value. -/
def digitsFrom : Nat → Text → Option Nat
  | n, [] => some n
  | n, c :: cs =>
    match digitOf c with
    | some d => digitsFrom (10 * n + d) cs
    | none => none

/-- A decimal number of at least one digit. -/
def parseNat : Text → Option Nat
  | [] => none
  | c :: cs => digitsFrom 0 (c :: cs)

/-- A decimal number, with `-` before a negative one. -/
def parseInt : Text → Option Int
  | '-' :: cs => (parseNat cs).map (fun n => - (n : Int))
  | cs => (parseNat cs).map (fun n => (n : Int))

/-- A register, `$r<n>` or `R<n>`. -/
def parseReg : Text → Option Nat
  | '$' :: 'r' :: cs => parseNat cs
  | 'R' :: cs => parseNat cs
  | _ => none

/-- The value of a name. -/
def lookupName (names : Names) (t : Text) : Option Int := (names.find? (fun e => e.1 == t)).map (·.2)

/-- An immediate: a decimal number, or a name with a value (R8, R90). DESIGN CHOICE (log 32): a text that is both is read as the
number, as the source says nothing of such a clash (N4). -/
def parseImmediate (names : Names) (t : Text) : Option Int :=
  match parseInt t with
  | some v => some v
  | none => lookupName names t

/-- A memory operand `offset(register)`. -/
def parseMem (names : Names) (t : Text) : Option Operand :=
  match cutAt '(' t with
  | (o, some r) =>
    match cutAt ')' r with
    | (b, some []) => do return .mem (← parseImmediate names (trimBlanks o)) (← parseReg (trimBlanks b))
    | _ => none
  | (_, none) => none

/-- An operand: a register, a memory operand or an immediate (R90). DESIGN CHOICE (log 32): they are tried in this order, so that a
text spelt like a register is that register even where it is a name too (N4). -/
def parseOperand (names : Names) (t : Text) : Option Operand :=
  match parseReg t with
  | some n => some (.reg n)
  | none =>
    match parseMem names t with
    | some m => some m
    | none => (parseImmediate names t).map .num

/-- Operands separated by commas; an empty text is no operand. -/
def parseOperands (names : Names) (t : Text) : Option (List Operand) :=
  if t.isEmpty then some [] else (splitAt ',' t).mapM (fun o => parseOperand names (trimBlanks o))

/-! ### The mnemonics, in lower case -/

/-- Arithmetic. -/
def arithmeticNames : List (List Char × Mnemonic) :=
  [(['a', 'd', 'd'], .add),
   (['a', 'd', 'd', 'i'], .addi),
   (['s', 'u', 'b'], .sub),
   (['s', 'u', 'b', 'i'], .subi),
   (['n', 'e', 'g'], .neg),
   (['m', 'u', 'l', 'u'], .mulu),
   (['m', 'u', 'l'], .mul),
   (['d', 'i', 'v', 'u'], .divu),
   (['d', 'i', 'v'], .div)]

/-- Constants and moves. -/
def constantNames : List (List Char × Mnemonic) :=
  [(['l', 'u', 'i'], .lui),
   (['l', 'l', 'i'], .lli),
   (['l', 'i'], .li),
   (['m', 'o', 'v', 'e'], .move)]

/-- Shifts. -/
def shiftNames : List (List Char × Mnemonic) :=
  [(['s', 'l', 'l'], .sll),
   (['s', 'l', 'l', 'i'], .slli),
   (['s', 'r', 'l'], .srl),
   (['s', 'r', 'l', 'i'], .srli)]

/-- Logic. -/
def logicNames : List (List Char × Mnemonic) :=
  [(['a', 'n', 'd'], .and),
   (['a', 'n', 'd', 'i'], .andi),
   (['o', 'r'], .or),
   (['o', 'r', 'i'], .ori),
   (['n', 'o', 't'], .not),
   (['n', 'o', 'r'], .nor),
   (['x', 'o', 'r'], .xor)]

/-- Loads and stores. -/
def memoryNames : List (List Char × Mnemonic) :=
  [(['l', 'b'], .lb),
   (['l', 'b', 'u'], .lbu),
   (['l', 'h'], .lh),
   (['l', 'h', 'u'], .lhu),
   (['l', 'w'], .lw),
   (['s', 'b'], .sb),
   (['s', 'h'], .sh),
   (['s', 'w'], .sw)]

/-- Transfers. -/
def transferNames : List (List Char × Mnemonic) :=
  [(['j', 'r'], .jr),
   (['c', 'a', 'l', 'l'], .call),
   (['b'], .b)]

/-- Conditional branches. -/
def branchNames : List (List Char × Mnemonic) :=
  [(['b', 'e', 'q'], .beq),
   (['b', 'e', 'q', 'z'], .beqz),
   (['b', 'n', 'e'], .bne),
   (['b', 'n', 'e', 'z'], .bnez),
   (['b', 'g', 'e'], .bge),
   (['b', 'g', 'e', 'u'], .bgeu),
   (['b', 'g', 't'], .bgt),
   (['b', 'g', 't', 'u'], .bgtu),
   (['b', 'l', 'e'], .ble),
   (['b', 'l', 'e', 'u'], .bleu),
   (['b', 'l', 't'], .blt),
   (['b', 'l', 't', 'u'], .bltu)]

/-- RET and the system instructions. -/
def systemNames : List (List Char × Mnemonic) :=
  [(['r', 'e', 't'], .ret),
   (['e', 'r', 'e', 't'], .eret),
   (['n', 'o', 'p'], .nop),
   (['h', 'a', 'l', 't'], .halt)]

/-- All mnemonics of Appendix A. -/
def mnemonicNames : List (List Char × Mnemonic) :=
  arithmeticNames ++ constantNames ++ shiftNames ++ logicNames ++ memoryNames ++ transferNames ++ branchNames ++ systemNames

/-- A mnemonic; "both spellings are accepted", upper case and lower case. -/
def parseMnemonic (t : Text) : Option Mnemonic :=
  (mnemonicNames.find? (fun e => e.1 == t || e.1.map Char.toUpper == t)).map (·.2)

/-! ### Lines -/

/-- What one line of a program is. -/
inductive TextLine where
  /-- Nothing but blanks and a comment. -/
  | blank
  /-- `.define NAME, value`. -/
  | define (name : Text) (value : Int)
  | instruction (l : Line)
  deriving DecidableEq, Repr

/-- The directive `.define` of the manual's example, in its own spelling. -/
def defineWord : Text := ['.', 'd', 'e', 'f', 'i', 'n', 'e']

/-- One line of text, `none` where it is nothing that R90 shows. DESIGN CHOICE (log 32): the NAME of a `.define` is any text that is
not empty once the blanks at its ends are gone and holds no comma and no `#`, so that `5`, `R5` and `A B` are names too; the source
shows the one name `TWO` (N4). -/
def parseLine (names : Names) (text : Text) : Option TextLine :=
  let t := trimBlanks (stripComment text)
  if t.isEmpty then some .blank
  else
    let word := t.takeWhile (fun c => !isBlank c)
    let rest := trimBlanks (t.dropWhile (fun c => !isBlank c))
    if word == defineWord then
      match splitAt ',' rest with
      | [name, value] =>
        match trimBlanks name, parseInt (trimBlanks value) with
        | [], _ => none
        | _, none => none
        | n :: ns, some v => some (.define (n :: ns) v)
      | _ => none
    else do return .instruction ⟨← parseMnemonic word, ← parseOperands names rest⟩

/-- The instructions of a program of several lines, in order; `none` where a line is refused. -/
def assembleText : Names → List Text → Option (List Instr)
  | _, [] => some []
  | names, t :: ts =>
    match parseLine names t with
    | none => none
    | some .blank => assembleText names ts
    | some (.define n v) => assembleText ((n, v) :: names) ts
    | some (.instruction l) => do return (← assemble l) ++ (← assembleText names ts)

/-- The image of a program: the bytes of its instruction words in order, each least significant byte first (20_memory.md R44). -/
def imageBytes (is : List Instr) : List Byte := is.flatMap (fun i => bytesOfWord (encode i))

end Sys2Proof
end

