-- ==== Sys2Proof/Laws/Assembler.lean ====
section
/-! SUPPORT. What the operand checks of the assembler do (30_encoding.md R90, D24): each takes an operand exactly where its check of
`WellFormed` does, and takes the value of every field. -/

namespace Sys2Proof

theorem asmReg_isSome (n : Nat) : (asmReg n).isSome = regOk n := by
  unfold asmReg regOk; split <;> simp_all

theorem asmConst16_isSome (v : Int) : (asmConst16 v).isSome = const16Ok v := by
  unfold asmConst16; split <;> simp_all

theorem asmOff16_isSome (v : Int) : (asmOff16 v).isSome = off16Ok v := by
  unfold asmOff16; split <;> simp_all

theorem asmConst26_isSome (v : Int) : (asmConst26 v).isSome = const26Ok v := by
  unfold asmConst26; split <;> simp_all

theorem asmOff26_isSome (v : Int) : (asmOff26 v).isSome = off26Ok v := by
  unfold asmOff26; split <;> simp_all

theorem asmConst32_isSome (v : Int) : (asmConst32 v).isSome = const32Ok v := by
  unfold asmConst32; split <;> simp_all

theorem asmReg_val (r : Reg) : asmReg r.val = some r := by simp [asmReg]

theorem asmConst16_toNat (c : Half) : asmConst16 c.toNat = some c := by
  have := c.isLt
  rw [asmConst16, if_pos (by simp [const16Ok]; omega)]
  simp

theorem asmOff16_toInt (o : Half) : asmOff16 o.toInt = some o := by
  have := BitVec.toInt_lt (x := o)
  have := BitVec.le_toInt o
  rw [asmOff16, if_pos (by simp [off16Ok]; omega)]
  simp

theorem asmConst26_toNat (c : BitVec 26) : asmConst26 c.toNat = some c := by
  have := c.isLt
  rw [asmConst26, if_pos (by simp [const26Ok]; omega)]
  simp

theorem asmOff26_toInt (o : BitVec 26) : asmOff26 o.toInt = some o := by
  have := BitVec.toInt_lt (x := o)
  have := BitVec.le_toInt o
  rw [asmOff26, if_pos (by simp [off26Ok]; omega)]
  simp

theorem asmConst32_toNat (c : Word) : asmConst32 c.toNat = some c := by
  have := c.isLt
  rw [asmConst32, if_pos (by simp [const32Ok]; omega)]
  simp

/-- Digits read after digits. -/
theorem digitsFrom_append {a b : Nat} {l : Text} (m : Text) (h : digitsFrom a l = some b) :
    digitsFrom a (l ++ m) = digitsFrom b m := by
  induction l generalizing a with
  | nil => cases h; rfl
  | cons c l ih =>
    simp only [List.cons_append, digitsFrom] at h ⊢
    split at h
    · exact ih h
    · cases h

/-- A comment is stripped whatever stands before it. -/
theorem stripComment_append (t c : Text) : stripComment (t ++ '#' :: c) = stripComment t := by
  induction t with
  | nil => simp [stripComment]
  | cons a t ih =>
    simp only [stripComment, List.cons_append, List.takeWhile_cons] at *
    split
    · simp [ih]
    · rfl

end Sys2Proof
end

