-- ==== Sys2Proof/Laws/State.lean ====
section
/-! SUPPORT. What each update of the state does to each field, and reading a register after writing one. -/

namespace Sys2Proof.Machine

/-! ### pc -/

@[simp] theorem jump_regs (s : State) (t : Word) : (s.jump t).regs = s.regs := rfl
@[simp] theorem jump_pc (s : State) (t : Word) : (s.jump t).pc = t := rfl
@[simp] theorem jump_epc (s : State) (t : Word) : (s.jump t).epc = s.epc := rfl
@[simp] theorem jump_halted (s : State) (t : Word) : (s.jump t).halted = s.halted := rfl
@[simp] theorem jump_mem (s : State) (t : Word) : (s.jump t).mem = s.mem := rfl
@[simp] theorem jump_platform (s : State) (t : Word) : (s.jump t).platform = s.platform := rfl

@[simp] theorem advance_regs (s : State) : s.advance.regs = s.regs := rfl
@[simp] theorem advance_pc (s : State) : s.advance.pc = s.pc + 4 := rfl
@[simp] theorem advance_epc (s : State) : s.advance.epc = s.epc := rfl
@[simp] theorem advance_halted (s : State) : s.advance.halted = s.halted := rfl
@[simp] theorem advance_mem (s : State) : s.advance.mem = s.mem := rfl
@[simp] theorem advance_platform (s : State) : s.advance.platform = s.platform := rfl

/-! ### The halt line and exceptions -/

@[simp] theorem assertHalt_regs (s : State) : s.assertHalt.regs = s.regs := rfl
@[simp] theorem assertHalt_pc (s : State) : s.assertHalt.pc = s.pc := rfl
@[simp] theorem assertHalt_epc (s : State) : s.assertHalt.epc = s.epc := rfl
@[simp] theorem assertHalt_halted (s : State) : s.assertHalt.halted = true := rfl
@[simp] theorem assertHalt_mem (s : State) : s.assertHalt.mem = s.mem := rfl
@[simp] theorem assertHalt_platform (s : State) : s.assertHalt.platform = s.platform := rfl

@[simp] theorem enterException_regs (a h : Word) (s : State) : (enterException a h s).regs = s.regs := rfl
@[simp] theorem enterException_pc (a h : Word) (s : State) : (enterException a h s).pc = h := rfl
@[simp] theorem enterException_epc (a h : Word) (s : State) : (enterException a h s).epc = some a := rfl
@[simp] theorem enterException_halted (a h : Word) (s : State) : (enterException a h s).halted = s.halted := rfl
@[simp] theorem enterException_mem (a h : Word) (s : State) : (enterException a h s).mem = s.mem := rfl
@[simp] theorem enterException_platform (a h : Word) (s : State) :
    (enterException a h s).platform = s.platform := rfl

/-! ### Boot -/

@[simp] theorem boot_regs (p : Platform) (v : Word) (m : Memory) : (State.boot p v m).regs = resetRegs := rfl
@[simp] theorem boot_pc (p : Platform) (v : Word) (m : Memory) : (State.boot p v m).pc = v := rfl
@[simp] theorem boot_epc (p : Platform) (v : Word) (m : Memory) : (State.boot p v m).epc = none := rfl
@[simp] theorem boot_halted (p : Platform) (v : Word) (m : Memory) : (State.boot p v m).halted = false := rfl
@[simp] theorem boot_mem (p : Platform) (v : Word) (m : Memory) : (State.boot p v m).mem = m := rfl
@[simp] theorem boot_platform (p : Platform) (v : Word) (m : Memory) : (State.boot p v m).platform = p := rfl

/-! ### Register writes -/

theorem writeReg_zero (s : State) (v : Word) : s.writeReg 0 v = s := by simp [State.writeReg]

@[simp] theorem writeReg_pc (s : State) (r : Reg) (v : Word) : (s.writeReg r v).pc = s.pc := by
  unfold State.writeReg; split <;> rfl
@[simp] theorem writeReg_epc (s : State) (r : Reg) (v : Word) : (s.writeReg r v).epc = s.epc := by
  unfold State.writeReg; split <;> rfl
@[simp] theorem writeReg_halted (s : State) (r : Reg) (v : Word) : (s.writeReg r v).halted = s.halted := by
  unfold State.writeReg; split <;> rfl
@[simp] theorem writeReg_mem (s : State) (r : Reg) (v : Word) : (s.writeReg r v).mem = s.mem := by
  unfold State.writeReg; split <;> rfl
@[simp] theorem writeReg_platform (s : State) (r : Reg) (v : Word) : (s.writeReg r v).platform = s.platform := by
  unfold State.writeReg; split <;> rfl

@[simp] theorem writePair_pc (s : State) (r : Reg) (v w : Word) : (s.writePair r v w).pc = s.pc := by
  unfold State.writePair; split <;> simp
@[simp] theorem writePair_epc (s : State) (r : Reg) (v w : Word) : (s.writePair r v w).epc = s.epc := by
  unfold State.writePair; split <;> simp
@[simp] theorem writePair_halted (s : State) (r : Reg) (v w : Word) : (s.writePair r v w).halted = s.halted := by
  unfold State.writePair; split <;> simp
@[simp] theorem writePair_mem (s : State) (r : Reg) (v w : Word) : (s.writePair r v w).mem = s.mem := by
  unfold State.writePair; split <;> simp
@[simp] theorem writePair_platform (s : State) (r : Reg) (v w : Word) : (s.writePair r v w).platform = s.platform := by
  unfold State.writePair; split <;> simp

/-! ### Reading a register -/

@[simp] theorem readReg_zero (s : State) : s.readReg 0 = 0 := by simp [State.readReg]

/-- A read depends on the register file alone. -/
theorem readReg_congr {s t : State} (h : t.regs = s.regs) (r : Reg) : t.readReg r = s.readReg r := by
  simp [State.readReg, h]

@[simp] theorem readReg_jump (s : State) (t : Word) (r : Reg) : (s.jump t).readReg r = s.readReg r := rfl
@[simp] theorem readReg_advance (s : State) (r : Reg) : s.advance.readReg r = s.readReg r := rfl
@[simp] theorem readReg_assertHalt (s : State) (r : Reg) : s.assertHalt.readReg r = s.readReg r := rfl
@[simp] theorem readReg_enterException (a h : Word) (s : State) (r : Reg) :
    (enterException a h s).readReg r = s.readReg r := rfl

/-- Reading the register just written gives the value, but for R0. -/
theorem readReg_writeReg_same (s : State) (r : Reg) (v : Word) :
    (s.writeReg r v).readReg r = if r = 0 then 0 else v := by
  by_cases h : r = 0
  · simp [h]
  · simp [State.writeReg, State.readReg, h]

/-- Writing a register leaves every other one alone. -/
theorem readReg_writeReg_other (s : State) {r q : Reg} (v : Word) (h : q ≠ r) :
    (s.writeReg r v).readReg q = s.readReg q := by
  have hv : r.val ≠ q.val := fun e => h (Fin.ext e.symm)
  by_cases h0 : r = 0
  · simp [h0, writeReg_zero]
  · simp [State.writeReg, State.readReg, h0, Vector.getElem_set_ne, hv]

/-- The place of R0 is never written. -/
theorem writeReg_regs_zero (s : State) (r : Reg) (v : Word) : (s.writeReg r v).regs[0] = s.regs[0] := by
  by_cases h0 : r = 0
  · simp [h0, writeReg_zero]
  · have hv : r.val ≠ 0 := fun e => h0 (Fin.ext e)
    simp [State.writeReg, h0, Vector.getElem_set_ne, hv]

theorem writePair_regs_zero (s : State) (r : Reg) (v w : Word) : (s.writePair r v w).regs[0] = s.regs[0] := by
  unfold State.writePair; split <;> simp [writeReg_regs_zero]

/-- The first result of a pair, but for R0. -/
theorem readReg_writePair_first (s : State) (rd : Reg) (v w : Word) :
    (s.writePair rd v w).readReg rd = if rd = 0 then 0 else v := by
  unfold State.writePair
  split
  · rw [readReg_writeReg_other _ _ (fun e => by have := congrArg Fin.val e; simp at this), readReg_writeReg_same]
  · rw [readReg_writeReg_same]

/-- The second result of a pair, in the next register. -/
theorem readReg_writePair_second (s : State) {rd r : Reg} (v w : Word) (h : r.val = rd.val + 1) :
    (s.writePair rd v w).readReg r = w := by
  have hlt : rd.val + 1 < 32 := h ▸ r.isLt
  have hr : r = ⟨rd.val + 1, hlt⟩ := Fin.ext h
  have h0 : r ≠ 0 := fun e => by rw [e] at h; simp at h
  unfold State.writePair
  rw [dif_pos hlt, ← hr, readReg_writeReg_same, if_neg h0]

/-- A pair leaves every other register alone. -/
theorem readReg_writePair_other (s : State) {rd r : Reg} (v w : Word) (h1 : r ≠ rd) (h2 : r.val ≠ rd.val + 1) :
    (s.writePair rd v w).readReg r = s.readReg r := by
  unfold State.writePair
  split
  · rw [readReg_writeReg_other _ _ (fun e => h2 (by rw [e])), readReg_writeReg_other _ _ h1]
  · rw [readReg_writeReg_other _ _ h1]

/-! ### Reading a byte of memory -/

/-- A read of memory depends on the bytes and the address map alone. -/
theorem byteAt_congr {s t : State} (hm : t.mem = s.mem) (hp : t.platform = s.platform) (a : Nat) :
    t.byteAt a = s.byteAt a := by simp [State.byteAt, hm, hp]

@[simp] theorem byteAt_jump (s : State) (t : Word) (a : Nat) : (s.jump t).byteAt a = s.byteAt a := rfl
@[simp] theorem byteAt_advance (s : State) (a : Nat) : s.advance.byteAt a = s.byteAt a := rfl
@[simp] theorem byteAt_assertHalt (s : State) (a : Nat) : s.assertHalt.byteAt a = s.byteAt a := rfl
@[simp] theorem byteAt_writeReg (s : State) (r : Reg) (v : Word) (a : Nat) :
    (s.writeReg r v).byteAt a = s.byteAt a := byteAt_congr (by simp) (by simp) a
@[simp] theorem byteAt_writePair (s : State) (r : Reg) (v w : Word) (a : Nat) :
    (s.writePair r v w).byteAt a = s.byteAt a := byteAt_congr (by simp) (by simp) a

end Sys2Proof.Machine
end

