-- ==== Sys2Proof/Laws/Memory.lean ====
section
/-! SUPPORT. The laws of memory: a read after a write, the canonical form, and the address map. -/

namespace Sys2Proof.Machine

/-! ### Reading after writing -/

theorem Memory.read_write_same (m : Memory) (a : Nat) (v : Byte) : (m.write a v).read a = some v := by
  induction m with
  | nil => simp [Memory.write, Memory.read]
  | cons c m ih =>
    simp only [Memory.write]
    split
    · simp [Memory.read]
    · split
      · simp [Memory.read]
      · next h => simp [Memory.read, h, ih]

theorem Memory.read_write_other (m : Memory) {a b : Nat} (v : Byte) (h : b ≠ a) :
    (m.write a v).read b = m.read b := by
  induction m with
  | nil => simp [Memory.write, Memory.read, h.symm]
  | cons c m ih =>
    simp only [Memory.write]
    split
    · simp [Memory.read, h.symm]
    · split
      · next hc => simp [Memory.read, hc, h.symm]
      · simp [Memory.read, ih]

theorem Memory.read_writeBytes_other (vs : List Byte) (m : Memory) {a b : Nat} (h : b < a ∨ a + vs.length ≤ b) :
    (m.writeBytes a vs).read b = m.read b := by
  induction vs generalizing m a with
  | nil => rfl
  | cons v vs ih =>
    simp only [List.length_cons] at h
    simp only [Memory.writeBytes]
    rw [ih _ (by omega), Memory.read_write_other _ _ (by omega)]

theorem Memory.read_writeBytes_in (vs : List Byte) (m : Memory) {a i : Nat} (h : i < vs.length) :
    (m.writeBytes a vs).read (a + i) = some vs[i] := by
  induction vs generalizing m a i with
  | nil => simp at h
  | cons v vs ih =>
    simp only [Memory.writeBytes]
    cases i with
    | zero => rw [Memory.read_writeBytes_other _ _ (by omega)]; simp [Memory.read_write_same]
    | succ i =>
      have := ih (m.write a v) (a := a + 1) (i := i) (by simpa using h)
      simpa [Nat.add_assoc, Nat.add_comm, Nat.add_left_comm] using this

/-! ### The canonical form -/

theorem Memory.above_write {m : Memory} {a b : Nat} {v : Byte} (hm : Memory.above b m = true) (h : b < a) :
    Memory.above b (m.write a v) = true := by
  cases m with
  | nil => simpa [Memory.write, Memory.above] using h
  | cons c m =>
    simp only [Memory.write]
    split
    · simpa [Memory.above] using h
    · split
      · simpa [Memory.above] using h
      · simpa [Memory.above] using hm

theorem Memory.wf_cons (c : Host.Cell) (m : Memory) :
    Memory.wf (c :: m) = true ↔ c.1 < 2 ^ 32 ∧ Memory.above c.1 m = true ∧ m.wf = true := by
  simp only [Memory.wf, Bool.and_eq_true, decide_eq_true_eq, and_assoc]

theorem Memory.above_cons (a : Nat) (c : Host.Cell) (m : Memory) : Memory.above a (c :: m) = true ↔ a < c.1 := by
  simp only [Memory.above, decide_eq_true_eq]

/-- A write inside the 32-bit space keeps the canonical form. -/
theorem Memory.write_wf {m : Memory} {a : Nat} {v : Byte} (hm : m.wf = true) (h : a < 2 ^ 32) :
    (m.write a v).wf = true := by
  induction m with
  | nil => exact (Memory.wf_cons _ _).mpr ⟨h, rfl, rfl⟩
  | cons c m ih =>
    obtain ⟨hc, ha, hw⟩ := (Memory.wf_cons _ _).mp hm
    simp only [Memory.write]
    split
    · next hlt => exact (Memory.wf_cons _ _).mpr ⟨h, (Memory.above_cons _ _ _).mpr hlt, hm⟩
    · next hge =>
      split
      · next he => exact (Memory.wf_cons _ _).mpr ⟨h, he ▸ ha, hw⟩
      · next hne =>
        exact (Memory.wf_cons _ _).mpr ⟨hc, Memory.above_write ha (by omega : c.1 < a), ih hw⟩

theorem Memory.writeBytes_wf (vs : List Byte) {m : Memory} {a : Nat} (hm : m.wf = true) (h : a + vs.length ≤ 2 ^ 32) :
    (m.writeBytes a vs).wf = true := by
  induction vs generalizing m a with
  | nil => exact hm
  | cons v vs ih =>
    simp only [List.length_cons] at h
    exact ih (Memory.write_wf hm (by omega)) (by omega)

theorem reset_mem_wf : State.reset.mem.wf = true := rfl

/-- The entries after a write: the old ones and the written address. -/
theorem Memory.mem_write {m : Memory} {a : Nat} {v : Byte} {c : Host.Cell} (h : c ∈ m.write a v) :
    c ∈ m ∨ c.1 = a := by
  induction m with
  | nil => simp [Memory.write] at h; simp [h]
  | cons d m ih =>
    simp only [Memory.write] at h
    split at h
    · rcases List.mem_cons.mp h with h | h
      · exact .inr (by simp [h])
      · exact .inl h
    · split at h
      · rcases List.mem_cons.mp h with h | h
        · exact .inr (by simp [h])
        · exact .inl (List.mem_cons_of_mem _ h)
      · rcases List.mem_cons.mp h with h | h
        · exact .inl (by simp [h])
        · exact (ih h).imp (List.mem_cons_of_mem _) id

theorem Memory.mem_writeBytes (vs : List Byte) {m : Memory} {a : Nat} {c : Host.Cell} (h : c ∈ m.writeBytes a vs) :
    c ∈ m ∨ (a ≤ c.1 ∧ c.1 < a + vs.length) := by
  induction vs generalizing m a with
  | nil => exact .inl h
  | cons v vs ih =>
    simp only [List.length_cons]
    rcases ih h with h | h
    · exact (Memory.mem_write h).imp id (fun e => by omega)
    · exact .inr (by omega)

/-! ### The address map -/

theorem isMapped_lt {p : Platform} {a : Nat} (h : isMapped p a = true) : a < 2 ^ 32 := by
  by_contra hge
  rw [isMapped, addressKind, if_neg hge] at h
  cases h

theorem isText_isMapped {p : Platform} {a : Nat} (h : isText p a = true) : isMapped p a = true := by
  simp only [isText, decide_eq_true_eq] at h
  simp [isMapped, h]

theorem allMapped_iff {p : Platform} {a n : Nat} :
    allMapped p a n = true ↔ ∀ i, i < n → isMapped p (a + i) = true := by
  simp [allMapped, accessRange]

theorem allText_iff {p : Platform} {a n : Nat} : allText p a n = true ↔ ∀ i, i < n → isText p (a + i) = true := by
  simp [allText, accessRange]

theorem anyText_false_iff {p : Platform} {a n : Nat} :
    anyText p a n = false ↔ ∀ i, i < n → isText p (a + i) = false := by
  simp [anyText, accessRange]

/-- An aligned access of 1, 2 or 4 bytes does not run past the top of the address space (20_memory.md R42). -/
theorem alignedTo_fits {n : Nat} {a : Word} (hn : n = 1 ∨ n = 2 ∨ n = 4) (h : alignedTo n a = true) :
    a.toNat + n ≤ 2 ^ 32 := by
  simp only [alignedTo, decide_eq_true_eq] at h
  have := a.isLt
  rcases hn with rfl | rfl | rfl <;> omega

/-- A word is read exactly when its four bytes are. -/
theorem wordAt_eq_some {s : State} {a : Nat} {w : Word} :
    s.wordAt a = some w ↔ ∃ b0 b1 b2 b3, s.byteAt a = some b0 ∧ s.byteAt (a + 1) = some b1 ∧
      s.byteAt (a + 2) = some b2 ∧ s.byteAt (a + 3) = some b3 ∧ w = wordOfBytes b0 b1 b2 b3 := by
  unfold State.wordAt
  constructor
  · intro h
    split at h
    · next b0 b1 b2 b3 h0 h1 h2 h3 => exact ⟨b0, b1, b2, b3, h0, h1, h2, h3, by simpa using h.symm⟩
    · simp at h
  · rintro ⟨b0, b1, b2, b3, h0, h1, h2, h3, rfl⟩
    simp [h0, h1, h2, h3]

end Sys2Proof.Machine
end

