-- ==== Sys2Proof/Machine/Pseudo.lean ====
section
/-! DEFINITION. What a pseudo-instruction does: the effect of its expansion (30_encoding.md R91), the instructions executed one
after the other. The CPU never sees a pseudo-instruction; `step` does not use this file. -/

namespace Sys2Proof.Machine

/-- Instructions executed one after the other, stopping at the first fault or refusal. -/
def execSeq : List Instr → State → Result
  | [], s => .next s
  | i :: is, s =>
    match exec i s with
    | .next t => execSeq is t
    | .fault f => .fault f
    | .refused r => .refused r

/-- The effect of a pseudo-instruction. -/
def execPseudo (p : Pseudo) (s : State) : Result := execSeq (expand p) s

end Sys2Proof.Machine
end

