-- ==== Sys2Proof/Safety.lean ====
section
/-! DEFINITION. The terms the claims are stated in: how a run ends (70_reset_and_hazards.md R241), what an instruction changes
and leaves unchanged, which instructions can stop on which fault (60_exceptions.md R201), and the invariant every step keeps. -/

namespace Sys2Proof.Machine

/-! ### Runs -/

/-- How far a run has come, with the state it is in (70_reset_and_hazards.md R241). -/
inductive RunEnd where
  /-- The normal end: HALT was executed. -/
  | halted (s : State)
  /-- The abnormal end: a model fault, in the state before the faulting step. -/
  | faulted (f : Fault) (s : State)
  /-- A refusal, in the state before the refused step. -/
  | refused (r : Refusal) (s : State)
  /-- Still running after the steps asked for. -/
  | running (s : State)
  deriving DecidableEq, Repr

/-- At most `n` steps of a run, ended by HALT, a fault or a refusal (R241). -/
def runFor : Nat → State → RunEnd
  | 0, s => if s.halted then .halted s else .running s
  | n + 1, s =>
    if s.halted then .halted s
    else
      match step s with
      | .next t => runFor n t
      | .fault f => .faulted f s
      | .refused r => .refused r s

/-- A run of `n` steps that is safe: it meets no fault and no refusal (60_exceptions.md R203: "a proof about a program has to
show that no model fault is reachable"). -/
def safeFor (n : Nat) (s : State) : Bool :=
  match runFor n s with
  | .halted _ | .running _ => true
  | .faulted _ _ | .refused _ _ => false

/-! ### What an instruction changes -/

/-- All general registers, as they are read, are the same. -/
def SameRegs (s t : State) : Prop := ∀ r, t.readReg r = s.readReg r

/-- Every byte of memory reads the same. -/
def SameMemory (s t : State) : Prop := ∀ a, t.byteAt a = s.byteAt a

/-- The exception register, the halt line and the parameters of the run are the same. -/
def SameSystem (s t : State) : Prop := t.epc = s.epc ∧ t.halted = s.halted ∧ t.platform = s.platform

/-- One register result and nothing else: `x[rd]` is `v` (ignored for R0), the other registers, memory and the system state
are as before, and `pc` is the next instruction's. -/
def WritesReg (s t : State) (rd : Reg) (v : Word) : Prop :=
  t.readReg rd = (if rd = 0 then 0 else v) ∧ (∀ r, r ≠ rd → t.readReg r = s.readReg r) ∧
  SameMemory s t ∧ SameSystem s t ∧ t.pc = s.pc + 4

/-- Two register results and nothing else (10_state.md R24): `x[rd]` is `v` (ignored for R0), the register numbered `rd + 1`,
if there is one, is `w`. -/
def WritesPair (s t : State) (rd : Reg) (v w : Word) : Prop :=
  t.readReg rd = (if rd = 0 then 0 else v) ∧ (∀ r : Reg, r.val = rd.val + 1 → t.readReg r = w) ∧
  (∀ r : Reg, r ≠ rd → r.val ≠ rd.val + 1 → t.readReg r = s.readReg r) ∧
  SameMemory s t ∧ SameSystem s t ∧ t.pc = s.pc + 4

/-- A transfer to `target` and nothing else. -/
def OnlyJumps (s t : State) (target : Word) : Prop :=
  t.pc = target ∧ SameRegs s t ∧ SameMemory s t ∧ SameSystem s t

/-- `n` bytes stored at `ea` and nothing else: byte `i` of them is `bytes i`, every other byte of memory reads as before. -/
def StoresBytes (s t : State) (ea : Word) (n : Nat) (bytes : Nat → Byte) : Prop :=
  (∀ i, i < n → t.byteAt (ea.toNat + i) = some (bytes i)) ∧
  (∀ a, a < ea.toNat ∨ ea.toNat + n ≤ a → t.byteAt a = s.byteAt a) ∧
  SameRegs s t ∧ SameSystem s t ∧ t.pc = s.pc + 4

/-- A conditional branch on `c` (44_control_transfer.md R186): a next state in either case, at the target where `c` holds and
at the next instruction where it does not, and nothing else changed. -/
def BranchesOn (r : Result) (s : State) (c : Prop) (off16 : Half) : Prop :=
  ∃ t, r = .next t ∧ (c → OnlyJumps s t (s.pc + (off16.signExtend 32 <<< 2))) ∧ (¬ c → OnlyJumps s t (s.pc + 4))

/-- Everything a load of `n` bytes at `ea` into `rd` can do where the alignment is right (20_memory.md R42, R51): `value` is the
register's new value, given the bytes by their distance from `ea`. -/
def LoadsOrAccessFault (r : Result) (s : State) (rd : Reg) (ea : Word) (n : Nat) (value : (Nat → Byte) → Word) : Prop :=
  ((∃ k, k < n ∧ s.byteAt (ea.toNat + k) = none) → r = .fault (.accessFault ea)) ∧
  (∀ bytes : Nat → Byte, (∀ k, k < n → s.byteAt (ea.toNat + k) = some (bytes k)) →
    ∃ t, r = .next t ∧ WritesReg s t rd (value bytes))

/-- Everything a load of 2 or 4 bytes can do (20_memory.md R42, R46, R51). -/
def LoadsOrStops (r : Result) (s : State) (rd : Reg) (ea : Word) (n : Nat) (value : (Nat → Byte) → Word) : Prop :=
  (ea.toNat % n ≠ 0 → r = .fault (.misalignedData ea)) ∧ (ea.toNat % n = 0 → LoadsOrAccessFault r s rd ea n value)

/-- Everything a store of `n` bytes at `ea` can do where the alignment is right (20_memory.md R43, R51, R56): `bytes` gives the
bytes by their distance from `ea`. -/
def StoresOrAccessFault (r : Result) (s : State) (ea : Word) (n : Nat) (bytes : Nat → Byte) : Prop :=
  ((∃ k, k < n ∧ isMapped s.platform (ea.toNat + k) = false) → r = .fault (.accessFault ea)) ∧
  ((∀ k, k < n → isMapped s.platform (ea.toNat + k) = true) → s.platform.smcPolicy = .refuse →
    (∃ k, k < n ∧ isText s.platform (ea.toNat + k) = true) → r = .refused (.storeToProgramText ea)) ∧
  ((∀ k, k < n → isMapped s.platform (ea.toNat + k) = true) →
    (s.platform.smcPolicy = .refuse → ∀ k, k < n → isText s.platform (ea.toNat + k) = false) →
    ∃ t, r = .next t ∧ StoresBytes s t ea n bytes)

/-- Everything a store of 2 or 4 bytes can do (20_memory.md R43, R46, R51, R56). -/
def StoresOrStops (r : Result) (s : State) (ea : Word) (n : Nat) (bytes : Nat → Byte) : Prop :=
  (ea.toNat % n ≠ 0 → r = .fault (.misalignedData ea)) ∧ (ea.toNat % n = 0 → StoresOrAccessFault r s ea n bytes)

/-- The registers an instruction may write (the "writes" column of spec/opcode_table.json). -/
def destinations : Instr → List Reg
  | .add rd _ _ | .sub rd _ _ | .sll rd _ _ | .srl rd _ _ | .and rd _ _ | .or rd _ _ | .nor rd _ _ | .xor rd _ _ => [rd]
  | .addi rd _ _ | .subi rd _ _ | .andi rd _ _ | .ori rd _ _ | .slli rd _ _ | .srli rd _ _ | .lui rd _ => [rd]
  | .lb rd _ _ | .lbu rd _ _ | .lh rd _ _ | .lhu rd _ _ | .lw rd _ _ => [rd]
  | .mulu rd _ _ | .mul rd _ _ | .divu rd _ _ | .div rd _ _ =>
      if h : rd.val + 1 < 32 then [rd, ⟨rd.val + 1, h⟩] else [rd]
  | .call _ => [31]
  | .sb _ _ _ | .sh _ _ _ | .sw _ _ _ => []
  | .b _ | .jr _ => []
  | .beq _ _ _ | .bne _ _ _ | .bge _ _ _ | .bgeu _ _ _ | .bgt _ _ _ | .bgtu _ _ _ => []
  | .ble _ _ _ | .bleu _ _ _ | .blt _ _ _ | .bltu _ _ _ => []
  | .eret | .halt => []

/-- The address and the number of bytes an instruction stores, computed in the state it starts in; `none` for an instruction
that stores nothing (20_memory.md R48). -/
def storeRange (i : Instr) (s : State) : Option (Word × Nat) :=
  match i with
  | .sb rd _ off => some (effectiveAddress rd off s, 1)
  | .sh rd _ off => some (effectiveAddress rd off s, 2)
  | .sw rd _ off => some (effectiveAddress rd off s, 4)
  | _ => none

/-- The address and the number of bytes of the one data access an instruction makes (20_memory.md R48). -/
def accessOf (i : Instr) (s : State) : Option (Word × Nat) :=
  match i with
  | .lb _ rs off | .lbu _ rs off => some (effectiveAddress rs off s, 1)
  | .lh _ rs off | .lhu _ rs off => some (effectiveAddress rs off s, 2)
  | .lw _ rs off => some (effectiveAddress rs off s, 4)
  | _ => storeRange i s

/-- The instructions that by their own semantics can stop on no fault and no refusal: all but DIVU, DIV, the loads, the stores
and ERET (60_exceptions.md R201). -/
def cannotStop : Instr → Bool
  | .divu _ _ _ | .div _ _ _ | .eret => false
  | .lb _ _ _ | .lbu _ _ _ | .lh _ _ _ | .lhu _ _ _ | .lw _ _ _ | .sb _ _ _ | .sh _ _ _ | .sw _ _ _ => false
  | _ => true

/-- The instructions that copy an arbitrary value into `pc` (20_memory.md R47). -/
def copiesIntoPc : Instr → Bool
  | .jr _ | .eret => true
  | _ => false

/-! ### The invariant -/

/-- Every listed byte of memory is at an address of `MEM_MAP` (10_state.md R33). -/
def memInMap (s : State) : Bool := s.mem.all (fun c => isMapped s.platform c.1)

/-- The invariant every step keeps: memory is in its canonical form and lies in `MEM_MAP` (10_state.md R33), and the place of
the hard-wired R0 holds zero (R21). -/
def Inv (s : State) : Prop := s.mem.wf = true ∧ memInMap s = true ∧ s.regs[0] = 0

/-! ### The spec's classes of words and addresses -/

/-- The 22 unassigned opcodes, as 30_encoding.md R88 lists them. -/
def unassignedOpcodes : List (BitVec 6) :=
  [0b011110, 0b011111, 0b100110, 0b100111, 0b101000,
   0b101101, 0b101110, 0b101111, 0b110000, 0b110001, 0b110010, 0b110011, 0b110100, 0b110101, 0b110110, 0b110111,
   0b111000, 0b111001, 0b111010, 0b111011, 0b111100, 0b111101]

/-- The reserved bits of the instruction an opcode selects (30_encoding.md R87; the `reserved_mask` column of
spec/opcode_table.json); no bit for an unassigned opcode. -/
def reservedMask (opcode : BitVec 6) : Word :=
  if opcode ∈ ([0b000000, 0b000001, 0b000010, 0b000011, 0b000100, 0b000101,
                0b000111, 0b001000, 0b001001, 0b001010, 0b001011, 0b001100] : List (BitVec 6)) then 0x000007FF
  else if opcode = 0b000110 then 0x001F0000
  else if opcode = 0b010110 then 0x001FFFFF
  else if opcode = 0b111110 ∨ opcode = 0b111111 then 0x03FFFFFF
  else 0

end Sys2Proof.Machine
end

