-- ==== Sys2Proof/Laws/Ops.lean ====
section
/-! SUPPORT. One lemma per shared operation, saying once everything it can do, in the terms of `Safety`; and what one step can
do. -/

namespace Sys2Proof.Machine

/-- What `finishReg` does. -/
theorem finishReg_spec (rd : Reg) (v : Word) (s : State) :
    ∃ t, finishReg rd v s = .next t ∧ WritesReg s t rd v :=
  ⟨_, rfl, by simpa using readReg_writeReg_same s rd v,
    fun r h => by simpa using readReg_writeReg_other s v h, fun a => by simp, by simp [SameSystem], by simp⟩

/-- What `finishPair` does. -/
theorem finishPair_spec (rd : Reg) (v : Word × Word) (s : State) :
    ∃ t, finishPair rd v s = .next t ∧ WritesPair s t rd v.1 v.2 :=
  ⟨_, rfl, by simpa using readReg_writePair_first s rd v.1 v.2,
    fun r h => by simpa using readReg_writePair_second s v.1 v.2 h,
    fun r h1 h2 => by simpa using readReg_writePair_other s v.1 v.2 h1 h2,
    fun a => by simp, by simp [SameSystem], by simp⟩

/-- A jump is only a jump. -/
theorem jump_onlyJumps (s : State) (t : Word) : OnlyJumps s (s.jump t) t :=
  ⟨rfl, fun _ => rfl, fun _ => rfl, rfl, rfl, rfl⟩

/-- What `branchIf` does. -/
theorem branchIf_spec (c : Bool) (off : Half) (s : State) :
    ∃ t, branchIf c off s = .next t ∧ OnlyJumps s t (if c then branchTarget s.pc off else s.pc + 4) := by
  cases c
  · exact ⟨_, rfl, jump_onlyJumps s _⟩
  · exact ⟨_, rfl, jump_onlyJumps s _⟩

/-- What `divideBy` does. -/
theorem divideBy_cases (rd : Reg) (b : Word) (v : Word × Word) (s : State) :
    (b = 0 ∧ divideBy rd b v s = .fault .divideByZero) ∨ (b ≠ 0 ∧ divideBy rd b v s = finishPair rd v s) := by
  by_cases h : b = 0
  · exact .inl ⟨h, if_pos h⟩
  · exact .inr ⟨h, if_neg h⟩

/-- What `memRead8` does. -/
theorem memRead8_cases (s : State) (ea : Word) :
    (∃ b, s.byteAt ea.toNat = some b ∧ memRead8 s ea = .ok b) ∨
    (s.byteAt ea.toNat = none ∧ memRead8 s ea = .error (.accessFault ea)) := by
  unfold memRead8
  cases h : s.byteAt ea.toNat with
  | some b => exact .inl ⟨b, rfl, rfl⟩
  | none => exact .inr ⟨rfl, rfl⟩

/-- What `memRead16` does. -/
theorem memRead16_cases (s : State) (ea : Word) :
    (alignedTo 2 ea = false ∧ memRead16 s ea = .error (.misalignedData ea)) ∨
    (∃ b0 b1, alignedTo 2 ea = true ∧ s.byteAt ea.toNat = some b0 ∧ s.byteAt (ea.toNat + 1) = some b1 ∧
      memRead16 s ea = .ok (halfOfBytes b0 b1)) ∨
    (alignedTo 2 ea = true ∧ (s.byteAt ea.toNat = none ∨ s.byteAt (ea.toNat + 1) = none) ∧
      memRead16 s ea = .error (.accessFault ea)) := by
  unfold memRead16
  cases ha : alignedTo 2 ea
  · exact .inl ⟨rfl, rfl⟩
  · refine .inr ?_
    cases h0 : s.byteAt ea.toNat with
    | none => exact .inr ⟨rfl, .inl rfl, rfl⟩
    | some b0 =>
      cases h1 : s.byteAt (ea.toNat + 1) with
      | none => exact .inr ⟨rfl, .inr rfl, rfl⟩
      | some b1 => exact .inl ⟨b0, b1, rfl, rfl, rfl, rfl⟩

/-- What `memRead32` does. -/
theorem memRead32_cases (s : State) (ea : Word) :
    (alignedTo 4 ea = false ∧ memRead32 s ea = .error (.misalignedData ea)) ∨
    (∃ w, alignedTo 4 ea = true ∧ s.wordAt ea.toNat = some w ∧ memRead32 s ea = .ok w) ∨
    (alignedTo 4 ea = true ∧ s.wordAt ea.toNat = none ∧ memRead32 s ea = .error (.accessFault ea)) := by
  unfold memRead32
  cases ha : alignedTo 4 ea
  · exact .inl ⟨rfl, rfl⟩
  · refine .inr ?_
    cases h : s.wordAt ea.toNat with
    | none => exact .inr ⟨rfl, rfl, rfl⟩
    | some w => exact .inl ⟨w, rfl, rfl, rfl⟩

/-- What `finishLoad` does, when it answers a next state. -/
theorem finishLoad_next {rd : Reg} {v : Except Fault Word} {s t : State} (h : finishLoad rd v s = .next t) :
    ∃ w, v = .ok w ∧ WritesReg s t rd w := by
  cases v with
  | error f => simp [finishLoad] at h
  | ok w =>
    obtain ⟨u, hu, hw⟩ := finishReg_spec rd w s
    simp only [finishLoad, hu] at h
    cases h
    exact ⟨w, rfl, hw⟩

/-- What `memWrite` does: the four outcomes in the order of its checks. -/
theorem memWrite_cases (ea : Word) (bytes : List Byte) (s : State) :
    (alignedTo bytes.length ea = false ∧ memWrite ea bytes s = .fault (.misalignedData ea)) ∨
    (alignedTo bytes.length ea = true ∧ allMapped s.platform ea.toNat bytes.length = false ∧
      memWrite ea bytes s = .fault (.accessFault ea)) ∨
    (alignedTo bytes.length ea = true ∧ allMapped s.platform ea.toNat bytes.length = true ∧
      s.platform.smcPolicy = .refuse ∧ anyText s.platform ea.toNat bytes.length = true ∧
      memWrite ea bytes s = .refused (.storeToProgramText ea)) ∨
    (alignedTo bytes.length ea = true ∧ allMapped s.platform ea.toNat bytes.length = true ∧
      (s.platform.smcPolicy = .refuse → anyText s.platform ea.toNat bytes.length = false) ∧
      memWrite ea bytes s = .next { s with mem := s.mem.writeBytes ea.toNat bytes }.advance) := by
  unfold memWrite
  cases ha : alignedTo bytes.length ea
  · exact .inl ⟨rfl, rfl⟩
  refine .inr ?_
  cases hm : allMapped s.platform ea.toNat bytes.length
  · exact .inl ⟨rfl, rfl, rfl⟩
  refine .inr ?_
  by_cases hr : s.platform.smcPolicy = .refuse ∧ anyText s.platform ea.toNat bytes.length = true
  · exact .inl ⟨rfl, rfl, hr.1, hr.2, by simp [hr]⟩
  · refine .inr ⟨rfl, rfl, fun h => ?_, ?_⟩
    · cases ht : anyText s.platform ea.toNat bytes.length
      · rfl
      · exact absurd ⟨h, ht⟩ hr
    · simp only [if_neg hr, if_true]

/-- A store that answers a next state stores its bytes and nothing else. -/
theorem memWrite_next {ea : Word} {bytes : List Byte} {s t : State} (h : memWrite ea bytes s = .next t) :
    alignedTo bytes.length ea = true ∧ allMapped s.platform ea.toNat bytes.length = true ∧
    (s.platform.smcPolicy = .refuse → anyText s.platform ea.toNat bytes.length = false) ∧
    t = { s with mem := s.mem.writeBytes ea.toNat bytes }.advance := by
  rcases memWrite_cases ea bytes s with ⟨_, e⟩ | ⟨_, _, e⟩ | ⟨_, _, _, _, e⟩ | ⟨ha, hm, hr, e⟩
  · rw [e] at h; cases h
  · rw [e] at h; cases h
  · rw [e] at h; cases h
  · rw [e] at h; cases h; exact ⟨ha, hm, hr, rfl⟩

/-- The bytes after a store, in the terms of `Safety`. -/
theorem stored_storesBytes (s : State) (ea : Word) (bytes : List Byte)
    (hm : allMapped s.platform ea.toNat bytes.length = true) :
    StoresBytes s { s with mem := s.mem.writeBytes ea.toNat bytes }.advance ea bytes.length
      (fun i => bytes.getD i 0) := by
  refine ⟨fun i hi => ?_, fun a ha => ?_, fun _ => rfl, ⟨rfl, rfl, rfl⟩, rfl⟩
  · have := allMapped_iff.mp hm i hi
    simp [State.byteAt, State.advance, State.jump, this, Memory.read_writeBytes_in bytes s.mem hi, List.getD, hi]
  · simp [State.byteAt, State.advance, State.jump, Memory.read_writeBytes_other bytes s.mem ha]

/-- What `returnFromException` does. -/
theorem returnFromException_cases (s : State) :
    (∃ a, s.epc = some a ∧ returnFromException s = .next (s.jump a)) ∨
    (s.epc = none ∧ returnFromException s = .fault .eretWithoutException) := by
  unfold returnFromException
  cases h : s.epc with
  | some a => exact .inl ⟨a, rfl, rfl⟩
  | none => exact .inr ⟨rfl, rfl⟩

/-- What `fetch` does. -/
theorem fetch_cases (s : State) :
    (alignedTo 4 s.pc = false ∧ fetch s = .error (.misalignedFetch s.pc)) ∨
    (alignedTo 4 s.pc = true ∧ s.platform.smcPolicy = .refuse ∧ allText s.platform s.pc.toNat 4 = false ∧
      fetch s = .error (.fetchFault s.pc)) ∨
    (alignedTo 4 s.pc = true ∧ s.wordAt s.pc.toNat = none ∧ fetch s = .error (.fetchFault s.pc)) ∨
    (∃ w, alignedTo 4 s.pc = true ∧ (s.platform.smcPolicy = .refuse → allText s.platform s.pc.toNat 4 = true) ∧
      s.wordAt s.pc.toNat = some w ∧ fetch s = .ok w) := by
  unfold fetch
  cases ha : alignedTo 4 s.pc
  · exact .inl ⟨rfl, rfl⟩
  refine .inr ?_
  by_cases hr : s.platform.smcPolicy = .refuse ∧ allText s.platform s.pc.toNat 4 = false
  · exact .inl ⟨rfl, hr.1, hr.2, by simp [hr]⟩
  refine .inr ?_
  simp only [if_true, if_neg hr]
  cases hw : s.wordAt s.pc.toNat with
  | none => exact .inl ⟨trivial, rfl, rfl⟩
  | some w =>
    refine .inr ⟨w, trivial, fun h => ?_, rfl, rfl⟩
    cases ht : allText s.platform s.pc.toNat 4
    · exact absurd ⟨h, ht⟩ hr
    · rfl

/-- What a step can do when it answers a next state: it executed the instruction it fetched. -/
theorem step_next {s t : State} (h : step s = .next t) :
    s.halted = false ∧ ∃ w i, fetch s = .ok w ∧ decode s.platform.reservedNonzero w = .ok i ∧ exec i s = .next t := by
  unfold step at h
  split at h
  · cases h
  · next hh =>
    refine ⟨by simpa using hh, ?_⟩
    split at h
    · cases h
    · next w hw =>
      split at h
      · cases h
      · cases h
      · next i hi => exact ⟨w, i, hw, hi, h⟩

end Sys2Proof.Machine
end

