-- ==== Sys2Proof/Laws/Exec.lean ====
section
/-! SUPPORT. Said once for all 42 instructions: what `exec` can do when it answers a next state. Proofs about every
instruction take the six cases of `Effect` apart and never unfold a meaning. -/

namespace Sys2Proof.Machine

/-- The six ways in which an instruction completes: one register result, two register results, a store, a transfer without a
register result, CALL, HALT. -/
inductive Effect (i : Instr) (s t : State) : Prop where
  | reg (rd : Reg) (v : Word) (hd : destinations i = [rd]) (hs : storeRange i s = none) (hh : i ≠ .halt)
      (ht : t = (s.writeReg rd v).advance)
  | pair (rd : Reg) (v w : Word) (hd : destinations i = if h : rd.val + 1 < 32 then [rd, ⟨rd.val + 1, h⟩] else [rd])
      (hs : storeRange i s = none) (hh : i ≠ .halt) (ht : t = (s.writePair rd v w).advance)
  | store (ea : Word) (bytes : List Byte) (hd : destinations i = []) (hs : storeRange i s = some (ea, bytes.length))
      (hh : i ≠ .halt) (hn : bytes.length = 1 ∨ bytes.length = 2 ∨ bytes.length = 4)
      (ha : alignedTo bytes.length ea = true) (hm : allMapped s.platform ea.toNat bytes.length = true)
      (hx : s.platform.smcPolicy = .refuse → anyText s.platform ea.toNat bytes.length = false)
      (ht : t = { s with mem := s.mem.writeBytes ea.toNat bytes }.advance)
  | transfer (a : Word) (hd : destinations i = []) (hs : storeRange i s = none) (hh : i ≠ .halt)
      (ha : copiesIntoPc i = false → ∃ d : Word, a = s.pc + (d <<< 2)) (ht : t = s.jump a)
  | call (c : BitVec 26) (hi : i = .call c) (ht : t = (s.writeReg 31 (s.pc + 4)).jump (callTarget c))
  | halt (hi : i = .halt) (ht : t = s.assertHalt)

theorem Effect.ofReg {i : Instr} {s t : State} {rd : Reg} {v : Word} (hd : destinations i = [rd])
    (hs : storeRange i s = none) (hh : i ≠ .halt) (h : finishReg rd v s = .next t) : Effect i s t := by
  cases h; exact .reg rd v hd hs hh rfl

theorem Effect.ofPair {i : Instr} {s t : State} {rd : Reg} {v : Word × Word}
    (hd : destinations i = if h : rd.val + 1 < 32 then [rd, ⟨rd.val + 1, h⟩] else [rd])
    (hs : storeRange i s = none) (hh : i ≠ .halt) (h : finishPair rd v s = .next t) : Effect i s t := by
  cases h; exact .pair rd v.1 v.2 hd hs hh rfl

theorem Effect.ofDivide {i : Instr} {s t : State} {rd : Reg} {b : Word} {v : Word × Word}
    (hd : destinations i = if h : rd.val + 1 < 32 then [rd, ⟨rd.val + 1, h⟩] else [rd])
    (hs : storeRange i s = none) (hh : i ≠ .halt) (h : divideBy rd b v s = .next t) : Effect i s t := by
  unfold divideBy at h
  split at h
  · cases h
  · exact .ofPair hd hs hh h

theorem Effect.ofLoad {i : Instr} {s t : State} {rd : Reg} {v : Except Fault Word} (hd : destinations i = [rd])
    (hs : storeRange i s = none) (hh : i ≠ .halt) (h : finishLoad rd v s = .next t) : Effect i s t := by
  cases v with
  | error f => cases h
  | ok w => exact .ofReg hd hs hh h

theorem Effect.ofStore {i : Instr} {s t : State} {ea : Word} {bytes : List Byte} (hd : destinations i = [])
    (hs : storeRange i s = some (ea, bytes.length)) (hh : i ≠ .halt)
    (hn : bytes.length = 1 ∨ bytes.length = 2 ∨ bytes.length = 4) (h : memWrite ea bytes s = .next t) : Effect i s t := by
  obtain ⟨ha, hm, hx, ht⟩ := memWrite_next h
  exact .store ea bytes hd hs hh hn ha hm hx ht

theorem Effect.ofBranch {i : Instr} {s t : State} {c : Bool} {off : Half} (hd : destinations i = [])
    (hs : storeRange i s = none) (hh : i ≠ .halt) (h : branchIf c off s = .next t) : Effect i s t := by
  cases h
  cases c
  · exact .transfer (s.pc + 4) hd hs hh (fun _ => ⟨1, rfl⟩) rfl
  · exact .transfer (branchTarget s.pc off) hd hs hh (fun _ => ⟨_, rfl⟩) rfl

/-- What an instruction can do when it completes. -/
theorem exec_effect {i : Instr} {s t : State} (h : exec i s = .next t) : Effect i s t := by
  cases i with
  | add rd rs rt => exact .ofReg rfl rfl nofun h
  | sub rd rs rt => exact .ofReg rfl rfl nofun h
  | mulu rd rs rt => exact .ofPair rfl rfl nofun h
  | mul rd rs rt => exact .ofPair rfl rfl nofun h
  | divu rd rs rt => exact .ofDivide rfl rfl nofun h
  | div rd rs rt => exact .ofDivide rfl rfl nofun h
  | lui rd c => exact .ofReg rfl rfl nofun h
  | sll rd rs rt => exact .ofReg rfl rfl nofun h
  | srl rd rs rt => exact .ofReg rfl rfl nofun h
  | and rd rs rt => exact .ofReg rfl rfl nofun h
  | or rd rs rt => exact .ofReg rfl rfl nofun h
  | nor rd rs rt => exact .ofReg rfl rfl nofun h
  | xor rd rs rt => exact .ofReg rfl rfl nofun h
  | lb rd rs off => exact .ofLoad rfl rfl nofun h
  | lh rd rs off => exact .ofLoad rfl rfl nofun h
  | lw rd rs off => exact .ofLoad rfl rfl nofun h
  | lbu rd rs off => exact .ofLoad rfl rfl nofun h
  | lhu rd rs off => exact .ofLoad rfl rfl nofun h
  | sb rd rs off => exact .ofStore rfl rfl nofun (.inl rfl) h
  | sh rd rs off => exact .ofStore rfl rfl nofun (.inr (.inl rfl)) h
  | sw rd rs off => exact .ofStore rfl rfl nofun (.inr (.inr rfl)) h
  | b off => cases h; exact .transfer _ rfl rfl nofun (fun _ => ⟨_, rfl⟩) rfl
  | jr rd => cases h; exact .transfer _ rfl rfl nofun nofun rfl
  | beq rd rs off => exact .ofBranch rfl rfl nofun h
  | bne rd rs off => exact .ofBranch rfl rfl nofun h
  | bge rd rs off => exact .ofBranch rfl rfl nofun h
  | bgt rd rs off => exact .ofBranch rfl rfl nofun h
  | ble rd rs off => exact .ofBranch rfl rfl nofun h
  | blt rd rs off => exact .ofBranch rfl rfl nofun h
  | call c => cases h; exact .call c rfl rfl
  | addi rd rs c => exact .ofReg rfl rfl nofun h
  | subi rd rs c => exact .ofReg rfl rfl nofun h
  | bgeu rd rs off => exact .ofBranch rfl rfl nofun h
  | bgtu rd rs off => exact .ofBranch rfl rfl nofun h
  | bleu rd rs off => exact .ofBranch rfl rfl nofun h
  | bltu rd rs off => exact .ofBranch rfl rfl nofun h
  | andi rd rs c => exact .ofReg rfl rfl nofun h
  | ori rd rs c => exact .ofReg rfl rfl nofun h
  | slli rd rs c => exact .ofReg rfl rfl nofun h
  | srli rd rs c => exact .ofReg rfl rfl nofun h
  | eret =>
    rcases returnFromException_cases s with ⟨a, _, e⟩ | ⟨_, e⟩
    · cases e.symm.trans h; exact .transfer a rfl rfl nofun nofun rfl
    · cases e.symm.trans h
  | halt => cases h; exact .halt rfl rfl

end Sys2Proof.Machine
end

