-- ==== Sys2Proof/Laws/Encoding.lean ====
section
/-! SUPPORT. The fields of a packed word (30_encoding.md R72 to R77): each field read back is the field put in, and the
reserved bits are zero (R87). -/

namespace Sys2Proof

@[simp] theorem regOfBits_regBits (r : Reg) : regOfBits (regBits r) = r := rfl

/-! ### Format RRR -/

@[simp] theorem opcodeField_packRRR (op : BitVec 6) (rd rs rt : Reg) : opcodeField (packRRR op rd rs rt) = op := by
  ext i hi
  simp only [opcodeField, packRRR, BitVec.getElem_extractLsb', BitVec.getLsbD_append]
  grind

@[simp] theorem rdField_packRRR (op : BitVec 6) (rd rs rt : Reg) : rdField (packRRR op rd rs rt) = rd := by
  have : (packRRR op rd rs rt).extractLsb' 21 5 = regBits rd := by
    ext i hi
    simp only [packRRR, BitVec.getElem_extractLsb', BitVec.getLsbD_append]
    grind
  rw [rdField, this, regOfBits_regBits]

@[simp] theorem rsField_packRRR (op : BitVec 6) (rd rs rt : Reg) : rsField (packRRR op rd rs rt) = rs := by
  have : (packRRR op rd rs rt).extractLsb' 16 5 = regBits rs := by
    ext i hi
    simp only [packRRR, BitVec.getElem_extractLsb', BitVec.getLsbD_append]
    grind
  rw [rsField, this, regOfBits_regBits]

@[simp] theorem rtField_packRRR (op : BitVec 6) (rd rs rt : Reg) : rtField (packRRR op rd rs rt) = rt := by
  have : (packRRR op rd rs rt).extractLsb' 11 5 = regBits rt := by
    ext i hi
    simp only [packRRR, BitVec.getElem_extractLsb', BitVec.getLsbD_append]
    grind
  rw [rtField, this, regOfBits_regBits]

@[simp] theorem reserved_packRRR (op : BitVec 6) (rd rs rt : Reg) : packRRR op rd rs rt &&& reservedRRR = 0 := by
  have hr : reservedRRR = (BitVec.allOnes 11).setWidth 32 := by decide
  ext i hi
  simp only [hr, packRRR, BitVec.getElem_and, BitVec.getElem_append, BitVec.getElem_setWidth, BitVec.getLsbD_allOnes]
  by_cases h : i < 11 <;> simp [h]

/-! ### Format RRI -/

@[simp] theorem opcodeField_packRRI (op : BitVec 6) (rd rs : Reg) (c : Half) : opcodeField (packRRI op rd rs c) = op := by
  ext i hi
  simp only [opcodeField, packRRI, BitVec.getElem_extractLsb', BitVec.getLsbD_append]
  grind

@[simp] theorem rdField_packRRI (op : BitVec 6) (rd rs : Reg) (c : Half) : rdField (packRRI op rd rs c) = rd := by
  have : (packRRI op rd rs c).extractLsb' 21 5 = regBits rd := by
    ext i hi
    simp only [packRRI, BitVec.getElem_extractLsb', BitVec.getLsbD_append]
    grind
  rw [rdField, this, regOfBits_regBits]

@[simp] theorem rsField_packRRI (op : BitVec 6) (rd rs : Reg) (c : Half) : rsField (packRRI op rd rs c) = rs := by
  have : (packRRI op rd rs c).extractLsb' 16 5 = regBits rs := by
    ext i hi
    simp only [packRRI, BitVec.getElem_extractLsb', BitVec.getLsbD_append]
    grind
  rw [rsField, this, regOfBits_regBits]

@[simp] theorem imm16Field_packRRI (op : BitVec 6) (rd rs : Reg) (c : Half) : imm16Field (packRRI op rd rs c) = c := by
  ext i hi
  simp only [imm16Field, packRRI, BitVec.getElem_extractLsb', BitVec.getLsbD_append]
  grind

/-! ### Format RI -/

@[simp] theorem opcodeField_packRI (op : BitVec 6) (rd : Reg) (c : Half) : opcodeField (packRI op rd c) = op := by
  ext i hi
  simp only [opcodeField, packRI, BitVec.getElem_extractLsb', BitVec.getLsbD_append]
  grind

@[simp] theorem rdField_packRI (op : BitVec 6) (rd : Reg) (c : Half) : rdField (packRI op rd c) = rd := by
  have : (packRI op rd c).extractLsb' 21 5 = regBits rd := by
    ext i hi
    simp only [packRI, BitVec.getElem_extractLsb', BitVec.getLsbD_append]
    grind
  rw [rdField, this, regOfBits_regBits]

@[simp] theorem imm16Field_packRI (op : BitVec 6) (rd : Reg) (c : Half) : imm16Field (packRI op rd c) = c := by
  ext i hi
  simp only [imm16Field, packRI, BitVec.getElem_extractLsb', BitVec.getLsbD_append]
  grind

@[simp] theorem reserved_packRI (op : BitVec 6) (rd : Reg) (c : Half) : packRI op rd c &&& reservedRI = 0 := by
  have hr : reservedRI = (BitVec.allOnes 5 ++ 0#16).setWidth 32 := by decide
  ext i hi
  simp only [hr, packRI, BitVec.getElem_and, BitVec.getElem_append, BitVec.getElem_setWidth, BitVec.getLsbD_append,
    BitVec.getLsbD_allOnes]
  by_cases h : i < 16
  · simp [h]
  · by_cases h2 : i - 16 < 5 <;> simp [h, h2]

/-! ### Format R -/

@[simp] theorem opcodeField_packR (op : BitVec 6) (rd : Reg) : opcodeField (packR op rd) = op := by
  ext i hi
  simp only [opcodeField, packR, BitVec.getElem_extractLsb', BitVec.getLsbD_append]
  grind

@[simp] theorem rdField_packR (op : BitVec 6) (rd : Reg) : rdField (packR op rd) = rd := by
  have : (packR op rd).extractLsb' 21 5 = regBits rd := by
    ext i hi
    simp only [packR, BitVec.getElem_extractLsb', BitVec.getLsbD_append]
    grind
  rw [rdField, this, regOfBits_regBits]

@[simp] theorem reserved_packR (op : BitVec 6) (rd : Reg) : packR op rd &&& reservedR = 0 := by
  have hr : reservedR = (BitVec.allOnes 21).setWidth 32 := by decide
  ext i hi
  simp only [hr, packR, BitVec.getElem_and, BitVec.getElem_append, BitVec.getElem_setWidth, BitVec.getLsbD_allOnes]
  by_cases h : i < 21 <;> simp [h]

/-! ### Format J -/

@[simp] theorem opcodeField_packJ (op : BitVec 6) (c : BitVec 26) : opcodeField (packJ op c) = op := by
  ext i hi
  simp only [opcodeField, packJ, BitVec.getElem_extractLsb', BitVec.getLsbD_append]
  grind

@[simp] theorem imm26Field_packJ (op : BitVec 6) (c : BitVec 26) : imm26Field (packJ op c) = c := by
  ext i hi
  simp only [imm26Field, packJ, BitVec.getElem_extractLsb', BitVec.getLsbD_append]
  grind

/-! ### Format N -/

@[simp] theorem opcodeField_packN (op : BitVec 6) : opcodeField (packN op) = op := by
  ext i hi
  simp only [opcodeField, packN, BitVec.getElem_extractLsb', BitVec.getLsbD_append]
  grind

@[simp] theorem reserved_packN (op : BitVec 6) : packN op &&& reservedN = 0 := by
  have hr : reservedN = (BitVec.allOnes 26).setWidth 32 := by decide
  ext i hi
  simp only [hr, packN, BitVec.getElem_and, BitVec.getElem_append, BitVec.getElem_setWidth, BitVec.getLsbD_allOnes]
  by_cases h : i < 26 <;> simp [h]

end Sys2Proof
end

