-- ==== Sys2Proof/Laws/PerInstr.lean ====
section
/-! SUPPORT. Facts about every instruction as syntax, one lemma per constructor (LAWS.json, "per_instruction"). -/

namespace Sys2Proof.Laws.EncodeFields

open Sys2Proof.Machine

/-- The word of an instruction carries the instruction's opcode (30_encoding.md R84) and zero in every reserved bit (R87). -/
def Statement (i : Instr) : Prop :=
  opcodeField (encode i) = opcodeOf i ∧ encode i &&& reservedMask (opcodeOf i) = 0

theorem ofRRR (op : BitVec 6) (rd rs rt : Reg) (h : reservedMask op = reservedRRR) :
    opcodeField (packRRR op rd rs rt) = op ∧ packRRR op rd rs rt &&& reservedMask op = 0 := by
  rw [h]; exact ⟨opcodeField_packRRR _ _ _ _, reserved_packRRR _ _ _ _⟩

theorem ofRRI (op : BitVec 6) (rd rs : Reg) (c : Half) (h : reservedMask op = 0) :
    opcodeField (packRRI op rd rs c) = op ∧ packRRI op rd rs c &&& reservedMask op = 0 := by
  rw [h]; exact ⟨opcodeField_packRRI _ _ _ _, BitVec.and_zero⟩

theorem ofJ (op : BitVec 6) (c : BitVec 26) (h : reservedMask op = 0) :
    opcodeField (packJ op c) = op ∧ packJ op c &&& reservedMask op = 0 := by
  rw [h]; exact ⟨opcodeField_packJ _ _, BitVec.and_zero⟩

theorem add (rd rs rt : Reg) : Statement (.add rd rs rt) := ofRRR _ _ _ _ rfl
theorem sub (rd rs rt : Reg) : Statement (.sub rd rs rt) := ofRRR _ _ _ _ rfl
theorem mulu (rd rs rt : Reg) : Statement (.mulu rd rs rt) := ofRRR _ _ _ _ rfl
theorem mul (rd rs rt : Reg) : Statement (.mul rd rs rt) := ofRRR _ _ _ _ rfl
theorem divu (rd rs rt : Reg) : Statement (.divu rd rs rt) := ofRRR _ _ _ _ rfl
theorem div (rd rs rt : Reg) : Statement (.div rd rs rt) := ofRRR _ _ _ _ rfl
theorem lui (rd : Reg) (const16 : Half) : Statement (.lui rd const16) := ⟨opcodeField_packRI _ _ _, reserved_packRI _ _ _⟩
theorem sll (rd rs rt : Reg) : Statement (.sll rd rs rt) := ofRRR _ _ _ _ rfl
theorem srl (rd rs rt : Reg) : Statement (.srl rd rs rt) := ofRRR _ _ _ _ rfl
theorem and (rd rs rt : Reg) : Statement (.and rd rs rt) := ofRRR _ _ _ _ rfl
theorem or (rd rs rt : Reg) : Statement (.or rd rs rt) := ofRRR _ _ _ _ rfl
theorem nor (rd rs rt : Reg) : Statement (.nor rd rs rt) := ofRRR _ _ _ _ rfl
theorem xor (rd rs rt : Reg) : Statement (.xor rd rs rt) := ofRRR _ _ _ _ rfl
theorem lb (rd rs : Reg) (off16 : Half) : Statement (.lb rd rs off16) := ofRRI _ _ _ _ rfl
theorem lh (rd rs : Reg) (off16 : Half) : Statement (.lh rd rs off16) := ofRRI _ _ _ _ rfl
theorem lw (rd rs : Reg) (off16 : Half) : Statement (.lw rd rs off16) := ofRRI _ _ _ _ rfl
theorem lbu (rd rs : Reg) (off16 : Half) : Statement (.lbu rd rs off16) := ofRRI _ _ _ _ rfl
theorem lhu (rd rs : Reg) (off16 : Half) : Statement (.lhu rd rs off16) := ofRRI _ _ _ _ rfl
theorem sb (rd rs : Reg) (off16 : Half) : Statement (.sb rd rs off16) := ofRRI _ _ _ _ rfl
theorem sh (rd rs : Reg) (off16 : Half) : Statement (.sh rd rs off16) := ofRRI _ _ _ _ rfl
theorem sw (rd rs : Reg) (off16 : Half) : Statement (.sw rd rs off16) := ofRRI _ _ _ _ rfl
theorem b (off26 : BitVec 26) : Statement (.b off26) := ofJ _ _ rfl
theorem jr (rd : Reg) : Statement (.jr rd) := ⟨opcodeField_packR _ _, reserved_packR _ _⟩
theorem beq (rd rs : Reg) (off16 : Half) : Statement (.beq rd rs off16) := ofRRI _ _ _ _ rfl
theorem bne (rd rs : Reg) (off16 : Half) : Statement (.bne rd rs off16) := ofRRI _ _ _ _ rfl
theorem bge (rd rs : Reg) (off16 : Half) : Statement (.bge rd rs off16) := ofRRI _ _ _ _ rfl
theorem bgt (rd rs : Reg) (off16 : Half) : Statement (.bgt rd rs off16) := ofRRI _ _ _ _ rfl
theorem ble (rd rs : Reg) (off16 : Half) : Statement (.ble rd rs off16) := ofRRI _ _ _ _ rfl
theorem blt (rd rs : Reg) (off16 : Half) : Statement (.blt rd rs off16) := ofRRI _ _ _ _ rfl
theorem call (const26 : BitVec 26) : Statement (.call const26) := ofJ _ _ rfl
theorem addi (rd rs : Reg) (const16 : Half) : Statement (.addi rd rs const16) := ofRRI _ _ _ _ rfl
theorem subi (rd rs : Reg) (const16 : Half) : Statement (.subi rd rs const16) := ofRRI _ _ _ _ rfl
theorem bgeu (rd rs : Reg) (off16 : Half) : Statement (.bgeu rd rs off16) := ofRRI _ _ _ _ rfl
theorem bgtu (rd rs : Reg) (off16 : Half) : Statement (.bgtu rd rs off16) := ofRRI _ _ _ _ rfl
theorem bleu (rd rs : Reg) (off16 : Half) : Statement (.bleu rd rs off16) := ofRRI _ _ _ _ rfl
theorem bltu (rd rs : Reg) (off16 : Half) : Statement (.bltu rd rs off16) := ofRRI _ _ _ _ rfl
theorem andi (rd rs : Reg) (const16 : Half) : Statement (.andi rd rs const16) := ofRRI _ _ _ _ rfl
theorem ori (rd rs : Reg) (const16 : Half) : Statement (.ori rd rs const16) := ofRRI _ _ _ _ rfl
theorem slli (rd rs : Reg) (const16 : Half) : Statement (.slli rd rs const16) := ofRRI _ _ _ _ rfl
theorem srli (rd rs : Reg) (const16 : Half) : Statement (.srli rd rs const16) := ofRRI _ _ _ _ rfl
theorem eret : Statement (.eret) := ⟨opcodeField_packN _, reserved_packN _⟩
theorem halt : Statement (.halt) := ⟨opcodeField_packN _, reserved_packN _⟩

end Sys2Proof.Laws.EncodeFields
end

