-- ==== Sys2Proof/Certificates/Slice0/Obligations.lean ====
section
/-! DEFINITION. The statements for the provers. Each docstring names the rule of spec/ it formalises, or says that a clause is
a decision of the spec (D<n> of 92_eei_decisions.md) or a choice of the model (log n). The words of an instruction are written
out from the spec's encoding tables (30_encoding.md R72 to R77, R84), so that a statement about an instruction also says which
word it is. Frames are those of `WritesReg`, `WritesPair`, `OnlyJumps`, `StoresBytes` in `Sys2Proof.Safety`: what they name
changes, every other register, every other byte of memory, `epc`, the halt line and the parameters of the run stay. -/

open Sys2Proof Sys2Proof.Machine

/-! ### Encoding, decoding, the step -/

/-- Decoding the word of an instruction gives the instruction back, for every instruction, every operand and either value of
`RESERVED_NONZERO` (30_encoding.md R92, a derived rule). -/
def Obligations.DecodeReadsEncodedInstruction : Prop := ∀ (p : ReservedPolicy) (i : Instr), decode p (encode i) = .ok i

/-- Each word has at most one meaning and no bit of it is dropped: under `RESERVED_NONZERO = fault`, a word that decodes is the
word the encoder writes (30_encoding.md R87 and R92; decision D3). -/
def Obligations.DecodedWordIsItsEncoding : Prop := ∀ (w : Word) (i : Instr), decode .fault w = .ok i → encode i = w

/-- Reserved bits (30_encoding.md R87, decision D3): with `ignore` a word means what it means with its reserved bits zero; with
`fault` a step on a word with a reserved bit set raises `ReservedBits` of that word. -/
def Obligations.ReservedBitsFaultOrAreIgnored : Prop :=
  (∀ w : Word, decode .ignore w = decode .fault (w &&& ~~~ reservedMask (opcodeField w))) ∧
  (∀ (s : State) (w : Word), s.halted = false → fetch s = .ok w → s.platform.reservedNonzero = .fault →
    w &&& reservedMask (opcodeField w) ≠ 0 → step s = .fault (.reservedBits w))

/-- Exactly the 22 unassigned opcodes select no instruction, and a step on such a word raises `IllegalInstruction` of it
(30_encoding.md R84 and R88, decision D4). -/
def Obligations.UnassignedOpcodesAreIllegal : Prop :=
  (∀ (p : ReservedPolicy) (w : Word), decode p w = .error .unassignedOpcode ↔ opcodeField w ∈ unassignedOpcodes) ∧
  (∀ (s : State) (w : Word), s.halted = false → fetch s = .ok w → opcodeField w ∈ unassignedOpcodes →
    step s = .fault (.illegalInstruction w))

/-- Words of 30_encoding.md R92 and of 95_test_vectors.md decode to the instructions they stand for, at least one word a family. Three
of the clauses rest on decisions of the spec and are no words of the manual: 0xF8000000 is ERET by the presumed opcode 111110 (R86,
decision D2, log 12); 0xFFFFFFFF is none by decision D3 (R87, log 9), as `decodeTableWord` decodes with `RESERVED_NONZERO = fault`;
0x78000000 is none by decision D4 (R88). -/
def Obligations.SpecWordsDecode : Prop :=
  decodeTableWord 32 0x81070005 = some (.addi 8 7 5) ∧ decodeTableWord 32 0x53A5FFFC = some (.sw 29 5 0xFFFC) ∧
  decodeTableWord 32 0x09073000 = some (.mulu 8 7 6) ∧ decodeTableWord 32 0x18A0DEAD = some (.lui 5 0xDEAD) ∧
  decodeTableWord 32 0x1D073000 = some (.sll 8 7 6) ∧ decodeTableWord 32 0x2C642000 = some (.nor 3 4 4) ∧
  decodeTableWord 32 0x3507FFF9 = some (.lb 8 7 0xFFF9) ∧ decodeTableWord 32 0x5BE00000 = some (.jr 31) ∧
  decodeTableWord 32 0x74000405 = some (.call 0x405) ∧ decodeTableWord 32 0x57FFFFFE = some (.b 0x3FFFFFE) ∧
  decodeTableWord 32 0x9422FFFD = some (.bltu 1 2 0xFFFD) ∧ decodeTableWord 32 0xF8000000 = some .eret ∧
  decodeTableWord 32 0xFC000000 = some .halt ∧ decodeTableWord 32 0xFFFFFFFF = none ∧ decodeTableWord 32 0x78000000 = none

/-- A step runs the decoded instruction: where the CPU is not halted, `pc` is a multiple of 4, the four bytes at `pc` are there
(and are program text under `SMC_POLICY` refuse) and their little-endian word decodes to `i`, the step is `exec i` in that
same state; `exec` itself advances `pc` (10_state.md R27; 20_memory.md R44). -/
def Obligations.StepRunsDecodedInstruction : Prop :=
  ∀ (s : State) (i : Instr) (b0 b1 b2 b3 : Byte), s.halted = false → s.pc.toNat % 4 = 0 →
    s.byteAt s.pc.toNat = some b0 → s.byteAt (s.pc.toNat + 1) = some b1 →
    s.byteAt (s.pc.toNat + 2) = some b2 → s.byteAt (s.pc.toNat + 3) = some b3 →
    (s.platform.smcPolicy = .refuse → ∀ k, k < 4 → isText s.platform (s.pc.toNat + k) = true) →
    decode s.platform.reservedNonzero (b3 ++ b2 ++ b1 ++ b0) = .ok i → step s = exec i s

/-- The host's load of one instruction word where the next step fetches runs exactly that instruction, from every state and
for every instruction (log 26). -/
def Obligations.PlacedWordRuns : Prop :=
  ∀ (s : State) (i : Instr), step (s.withFetchWord 32 (encode i).toNat) = exec i (s.withFetchWord 32 (encode i).toNat)

/-- The faults of the fetch (20_memory.md R47, R51, R56; decisions D8, D9, D17): a misaligned `pc`; a byte of the instruction
that is not there, or, under `SMC_POLICY` refuse, is not program text. -/
def Obligations.FetchFaults : Prop :=
  ∀ s : State, s.halted = false →
    (s.pc.toNat % 4 ≠ 0 → step s = .fault (.misalignedFetch s.pc)) ∧
    (s.pc.toNat % 4 = 0 → (∃ k, k < 4 ∧ s.byteAt (s.pc.toNat + k) = none) → step s = .fault (.fetchFault s.pc)) ∧
    (s.pc.toNat % 4 = 0 → s.platform.smcPolicy = .refuse →
      (∃ k, k < 4 ∧ isText s.platform (s.pc.toNat + k) = false) → step s = .fault (.fetchFault s.pc))

/-- A halted CPU takes no step (10_state.md R27, R29); that the outcome is the refusal `halted` is the model's choice (log 8). -/
def Obligations.HaltedCpuTakesNoStep : Prop := ∀ s : State, s.halted = true → step s = .refused .halted

/-! ### Arithmetic (40_arithmetic.md) -/

/-- ADD (R100). -/
def Obligations.AddWritesSum : Prop :=
  ∀ (rd rs rt : Reg) (s : State),
    (∀ p, decode p (0b000000#6 ++ regBits rd ++ regBits rs ++ regBits rt ++ 0#11) = .ok (.add rd rs rt)) ∧
    ∃ t, exec (.add rd rs rt) s = .next t ∧ WritesReg s t rd (s.readReg rs + s.readReg rt)

/-- ADDI (R101): the constant is unsigned; that the hardware zero-extends all 16 bits of it is decision D26 (log 19). -/
def Obligations.AddiAddsUnsignedConstant : Prop :=
  ∀ (rd rs : Reg) (c : Half) (s : State),
    (∀ p, decode p (0b100000#6 ++ regBits rd ++ regBits rs ++ c) = .ok (.addi rd rs c)) ∧
    ∃ t, exec (.addi rd rs c) s = .next t ∧ WritesReg s t rd (s.readReg rs + BitVec.ofNat 32 c.toNat)

/-- SUB (R102). -/
def Obligations.SubWritesDifference : Prop :=
  ∀ (rd rs rt : Reg) (s : State),
    (∀ p, decode p (0b000001#6 ++ regBits rd ++ regBits rs ++ regBits rt ++ 0#11) = .ok (.sub rd rs rt)) ∧
    ∃ t, exec (.sub rd rs rt) s = .next t ∧ WritesReg s t rd (s.readReg rs - s.readReg rt)

/-- SUBI (R103): the constant is unsigned; that the hardware zero-extends all 16 bits of it is decision D26 (log 19). -/
def Obligations.SubiSubtractsUnsignedConstant : Prop :=
  ∀ (rd rs : Reg) (c : Half) (s : State),
    (∀ p, decode p (0b100001#6 ++ regBits rd ++ regBits rs ++ c) = .ok (.subi rd rs c)) ∧
    ∃ t, exec (.subi rd rs c) s = .next t ∧ WritesReg s t rd (s.readReg rs - BitVec.ofNat 32 c.toNat)

/-- MULU (R105): the two results are the halves of the exact unsigned product. For `rd = 0` the second one goes to R1 by decision
D28 (log 22). -/
def Obligations.MuluWritesUnsignedProduct : Prop :=
  ∀ (rd rs rt : Reg) (s : State),
    (∀ p, decode p (0b000010#6 ++ regBits rd ++ regBits rs ++ regBits rt ++ 0#11) = .ok (.mulu rd rs rt)) ∧
    ∃ t lo hi, exec (.mulu rd rs rt) s = .next t ∧ WritesPair s t rd lo hi ∧
      hi.toNat * 2 ^ 32 + lo.toNat = (s.readReg rs).toNat * (s.readReg rt).toNat

/-- MUL (R106): the two results are the halves of the exact signed product, the high one read as signed. The opcode 000011 is
decision D1 of the spec (log 11); for `rd = 0` the second result goes to R1 by decision D28 (log 22). -/
def Obligations.MulWritesSignedProduct : Prop :=
  ∀ (rd rs rt : Reg) (s : State),
    (∀ p, decode p (0b000011#6 ++ regBits rd ++ regBits rs ++ regBits rt ++ 0#11) = .ok (.mul rd rs rt)) ∧
    ∃ t lo hi, exec (.mul rd rs rt) s = .next t ∧ WritesPair s t rd lo hi ∧
      hi.toInt * 2 ^ 32 + (lo.toNat : Int) = (s.readReg rs).toInt * (s.readReg rt).toInt

/-- DIVU (R107): quotient and remainder by the division identity; a zero divisor raises `DivideByZero` (R110, decision D10,
log 14); for `rd = 0` the remainder goes to R1 by decision D28 (log 22). -/
def Obligations.DivuWritesQuotientAndRemainder : Prop :=
  ∀ (rd rs rt : Reg) (s : State),
    (∀ p, decode p (0b000100#6 ++ regBits rd ++ regBits rs ++ regBits rt ++ 0#11) = .ok (.divu rd rs rt)) ∧
    (s.readReg rt = 0 → exec (.divu rd rs rt) s = .fault .divideByZero) ∧
    (s.readReg rt ≠ 0 → ∃ t q r, exec (.divu rd rs rt) s = .next t ∧ WritesPair s t rd q r ∧
      (s.readReg rs).toNat = q.toNat * (s.readReg rt).toNat + r.toNat ∧ r.toNat < (s.readReg rt).toNat)

/-- DIV (R108): the division identity over the signed readings, the remainder smaller than the divisor and zero or of the
dividend's sign, but for -2^31 / -1, which gives 0x80000000 and 0. The rounding and that corner are the spec's default
`SDIVREM` (decision D11, log 13); a zero divisor raises `DivideByZero` (R110, decision D10, log 14);
for `rd = 0` the remainder goes to R1 by decision D28 (log 22). -/
def Obligations.DivWritesTruncatedQuotientAndRemainder : Prop :=
  ∀ (rd rs rt : Reg) (s : State),
    (∀ p, decode p (0b000101#6 ++ regBits rd ++ regBits rs ++ regBits rt ++ 0#11) = .ok (.div rd rs rt)) ∧
    (s.readReg rt = 0 → exec (.div rd rs rt) s = .fault .divideByZero) ∧
    (s.readReg rt ≠ 0 → ∃ t q r, exec (.div rd rs rt) s = .next t ∧ WritesPair s t rd q r ∧
      (if s.readReg rs = 0x80000000 ∧ s.readReg rt = 0xFFFFFFFF then q = 0x80000000 ∧ r = 0
       else (s.readReg rs).toInt = q.toInt * (s.readReg rt).toInt + r.toInt ∧
        |r.toInt| < |(s.readReg rt).toInt| ∧ (r.toInt = 0 ∨ (r.toInt < 0 ↔ (s.readReg rs).toInt < 0))))

/-! ### Constants, shifts, logic (41_immediate_and_move.md, 42_shift_and_logic.md) -/

/-- LUI (R120). -/
def Obligations.LuiLoadsUpperHalfword : Prop :=
  ∀ (rd : Reg) (c : Half) (s : State),
    (∀ p, decode p (0b000110#6 ++ regBits rd ++ 0#5 ++ c) = .ok (.lui rd c)) ∧
    ∃ t, exec (.lui rd c) s = .next t ∧ WritesReg s t rd (c ++ 0#16)

/-- SLL (R130) and SLLI (R131): the amount is the five lower bits of the register or the constant. -/
def Obligations.LeftShiftsUseFiveBits : Prop :=
  (∀ (rd rs rt : Reg) (s : State),
    (∀ p, decode p (0b000111#6 ++ regBits rd ++ regBits rs ++ regBits rt ++ 0#11) = .ok (.sll rd rs rt)) ∧
    ∃ t, exec (.sll rd rs rt) s = .next t ∧ WritesReg s t rd (s.readReg rs <<< ((s.readReg rt).toNat % 32))) ∧
  (∀ (rd rs : Reg) (c : Half) (s : State),
    (∀ p, decode p (0b101011#6 ++ regBits rd ++ regBits rs ++ c) = .ok (.slli rd rs c)) ∧
    ∃ t, exec (.slli rd rs c) s = .next t ∧ WritesReg s t rd (s.readReg rs <<< (c.toNat % 32)))

/-- SRL (R132) and SRLI (R133): the quotient by a power of two, the amount being the five lower bits. -/
def Obligations.RightShiftsUseFiveBits : Prop :=
  (∀ (rd rs rt : Reg) (s : State),
    (∀ p, decode p (0b001000#6 ++ regBits rd ++ regBits rs ++ regBits rt ++ 0#11) = .ok (.srl rd rs rt)) ∧
    ∃ t, exec (.srl rd rs rt) s = .next t ∧
      WritesReg s t rd (BitVec.ofNat 32 ((s.readReg rs).toNat / 2 ^ ((s.readReg rt).toNat % 32)))) ∧
  (∀ (rd rs : Reg) (c : Half) (s : State),
    (∀ p, decode p (0b101100#6 ++ regBits rd ++ regBits rs ++ c) = .ok (.srli rd rs c)) ∧
    ∃ t, exec (.srli rd rs c) s = .next t ∧
      WritesReg s t rd (BitVec.ofNat 32 ((s.readReg rs).toNat / 2 ^ (c.toNat % 32))))

/-- AND (R134), OR (R136), NOR (R139), XOR (R140). -/
def Obligations.LogicOfTwoRegisters : Prop :=
  ∀ (rd rs rt : Reg) (s : State),
    (∀ p, decode p (0b001001#6 ++ regBits rd ++ regBits rs ++ regBits rt ++ 0#11) = .ok (.and rd rs rt) ∧
      decode p (0b001010#6 ++ regBits rd ++ regBits rs ++ regBits rt ++ 0#11) = .ok (.or rd rs rt) ∧
      decode p (0b001011#6 ++ regBits rd ++ regBits rs ++ regBits rt ++ 0#11) = .ok (.nor rd rs rt) ∧
      decode p (0b001100#6 ++ regBits rd ++ regBits rs ++ regBits rt ++ 0#11) = .ok (.xor rd rs rt)) ∧
    (∃ t, exec (.and rd rs rt) s = .next t ∧ WritesReg s t rd (s.readReg rs &&& s.readReg rt)) ∧
    (∃ t, exec (.or rd rs rt) s = .next t ∧ WritesReg s t rd (s.readReg rs ||| s.readReg rt)) ∧
    (∃ t, exec (.nor rd rs rt) s = .next t ∧ WritesReg s t rd (~~~ (s.readReg rs ||| s.readReg rt))) ∧
    (∃ t, exec (.xor rd rs rt) s = .next t ∧ WritesReg s t rd (s.readReg rs ^^^ s.readReg rt))

/-- ANDI (R135) and ORI (R137): the immediate is zero-extended, so ANDI clears the upper halfword and ORI keeps it (30_encoding.md
R79). -/
def Obligations.LogicWithZeroExtendedConstant : Prop :=
  ∀ (rd rs : Reg) (c : Half) (s : State),
    (∀ p, decode p (0b101001#6 ++ regBits rd ++ regBits rs ++ c) = .ok (.andi rd rs c) ∧
      decode p (0b101010#6 ++ regBits rd ++ regBits rs ++ c) = .ok (.ori rd rs c)) ∧
    (∃ t, exec (.andi rd rs c) s = .next t ∧ WritesReg s t rd (s.readReg rs &&& (0#16 ++ c))) ∧
    (∃ t, exec (.ori rd rs c) s = .next t ∧ WritesReg s t rd (s.readReg rs ||| (0#16 ++ c)))

/-! ### Loads and stores (43_load_store.md; 20_memory.md) -/

/-- LB (R150) and LBU (R151): the byte at base plus signed offset, sign- or zero-extended; `AccessFault` where there is none
(an unwritten byte of `MEM_MAP` counts as none: decision D9, log 5). -/
def Obligations.ByteLoads : Prop :=
  ∀ (rd rs : Reg) (off : Half) (s : State),
    (∀ p, decode p (0b001101#6 ++ regBits rd ++ regBits rs ++ off) = .ok (.lb rd rs off) ∧
      decode p (0b010000#6 ++ regBits rd ++ regBits rs ++ off) = .ok (.lbu rd rs off)) ∧
    LoadsOrAccessFault (exec (.lb rd rs off) s) s rd (s.readReg rs + off.signExtend 32) 1 (fun b => (b 0).signExtend 32) ∧
    LoadsOrAccessFault (exec (.lbu rd rs off) s) s rd (s.readReg rs + off.signExtend 32) 1 (fun b => 0#24 ++ b 0)

/-- LH (R152) and LHU (R153): little-endian halfwords, sign- or zero-extended; the faults are decisions D7 and D9 (log 5, log
15, log 16). -/
def Obligations.HalfwordLoads : Prop :=
  ∀ (rd rs : Reg) (off : Half) (s : State),
    (∀ p, decode p (0b001110#6 ++ regBits rd ++ regBits rs ++ off) = .ok (.lh rd rs off) ∧
      decode p (0b010001#6 ++ regBits rd ++ regBits rs ++ off) = .ok (.lhu rd rs off)) ∧
    LoadsOrStops (exec (.lh rd rs off) s) s rd (s.readReg rs + off.signExtend 32) 2
      (fun b => (b 1 ++ b 0).signExtend 32) ∧
    LoadsOrStops (exec (.lhu rd rs off) s) s rd (s.readReg rs + off.signExtend 32) 2 (fun b => 0#16 ++ b 1 ++ b 0)

/-- LW (R154): the little-endian word; the faults are decisions D7 and D9 (log 5, log 15, log 16). -/
def Obligations.WordLoad : Prop :=
  ∀ (rd rs : Reg) (off : Half) (s : State),
    (∀ p, decode p (0b001111#6 ++ regBits rd ++ regBits rs ++ off) = .ok (.lw rd rs off)) ∧
    LoadsOrStops (exec (.lw rd rs off) s) s rd (s.readReg rs + off.signExtend 32) 4
      (fun b => b 3 ++ b 2 ++ b 1 ++ b 0)

/-- SB (R155, R158): the base is `rd`, the data `rs`; the faults and the refusal are decisions D9 and D17 (log 10, log 16). -/
def Obligations.ByteStore : Prop :=
  ∀ (rd rs : Reg) (off : Half) (s : State),
    (∀ p, decode p (0b010010#6 ++ regBits rd ++ regBits rs ++ off) = .ok (.sb rd rs off)) ∧
    effectiveAddress rd off s = s.readReg rd + off.signExtend 32 ∧
    StoresOrAccessFault (exec (.sb rd rs off) s) s (effectiveAddress rd off s) 1
      (fun k => (s.readReg rs).extractLsb' (8 * k) 8)

/-- SH (R156, R158): the lower halfword, least significant byte first; the faults and the refusal are decisions D7, D9 and D17
(log 10, log 15, log 16). -/
def Obligations.HalfwordStore : Prop :=
  ∀ (rd rs : Reg) (off : Half) (s : State),
    (∀ p, decode p (0b010011#6 ++ regBits rd ++ regBits rs ++ off) = .ok (.sh rd rs off)) ∧
    effectiveAddress rd off s = s.readReg rd + off.signExtend 32 ∧
    StoresOrStops (exec (.sh rd rs off) s) s (effectiveAddress rd off s) 2
      (fun k => (s.readReg rs).extractLsb' (8 * k) 8)

/-- SW (R157, R158): the word, least significant byte first; the faults and the refusal are decisions D7, D9 and D17 (log 10,
log 15, log 16). -/
def Obligations.WordStore : Prop :=
  ∀ (rd rs : Reg) (off : Half) (s : State),
    (∀ p, decode p (0b010100#6 ++ regBits rd ++ regBits rs ++ off) = .ok (.sw rd rs off)) ∧
    effectiveAddress rd off s = s.readReg rd + off.signExtend 32 ∧
    StoresOrStops (exec (.sw rd rs off) s) s (effectiveAddress rd off s) 4
      (fun k => (s.readReg rs).extractLsb' (8 * k) 8)

/-! ### Control transfer (44_control_transfer.md) -/

/-- JR (R170): all 32 bits of the register; a misaligned or unmapped target is the next step's fault (decisions D8 and D9, log 15,
log 16). -/
def Obligations.JrJumpsToRegister : Prop :=
  ∀ (rd : Reg) (s : State),
    (∀ p, decode p (0b010110#6 ++ regBits rd ++ 0#21) = .ok (.jr rd)) ∧
    ∃ t, exec (.jr rd) s = .next t ∧ OnlyJumps s t (s.readReg rd) ∧
      (s.halted = false → (s.readReg rd).toNat % 4 ≠ 0 → step t = .fault (.misalignedFetch (s.readReg rd))) ∧
      (s.halted = false → (s.readReg rd).toNat % 4 = 0 → isMapped s.platform (s.readReg rd).toNat = false →
        step t = .fault (.fetchFault (s.readReg rd)))

/-- CALL (R171): the next instruction's address into R31, an absolute unsigned target. -/
def Obligations.CallSavesReturnAddress : Prop :=
  ∀ (c : BitVec 26) (s : State),
    (∀ p, decode p (0b011101#6 ++ c) = .ok (.call c)) ∧
    ∃ t, exec (.call c) s = .next t ∧ t.readReg 31 = s.pc + 4 ∧ t.pc = BitVec.ofNat 32 (c.toNat * 4) ∧
      (∀ r, r ≠ 31 → t.readReg r = s.readReg r) ∧ SameMemory s t ∧ SameSystem s t

/-- B (R172): relative to the branch itself (decision D27, log 18), signed. -/
def Obligations.BBranchesRelative : Prop :=
  ∀ (off : BitVec 26) (s : State),
    (∀ p, decode p (0b010101#6 ++ off) = .ok (.b off)) ∧
    ∃ t, exec (.b off) s = .next t ∧ OnlyJumps s t (s.pc + (off.signExtend 32 <<< 2))

/-- BEQ (R173) and BNE (R175); that the offset counts from the branch itself is decision D27 (log 18). -/
def Obligations.EqualityBranches : Prop :=
  ∀ (rd rs : Reg) (off : Half) (s : State),
    (∀ p, decode p (0b010111#6 ++ regBits rd ++ regBits rs ++ off) = .ok (.beq rd rs off) ∧
      decode p (0b011000#6 ++ regBits rd ++ regBits rs ++ off) = .ok (.bne rd rs off)) ∧
    BranchesOn (exec (.beq rd rs off) s) s (s.readReg rd = s.readReg rs) off ∧
    BranchesOn (exec (.bne rd rs off) s) s (s.readReg rd ≠ s.readReg rs) off

/-- BGE (R177), BGT (R179), BLE (R181), BLT (R183): the signed values themselves are compared, `x[rd]` against
`x[rs]`; that the offset counts from the branch itself is decision D27 (log 18). -/
def Obligations.SignedBranches : Prop :=
  ∀ (rd rs : Reg) (off : Half) (s : State),
    (∀ p, decode p (0b011001#6 ++ regBits rd ++ regBits rs ++ off) = .ok (.bge rd rs off) ∧
      decode p (0b011010#6 ++ regBits rd ++ regBits rs ++ off) = .ok (.bgt rd rs off) ∧
      decode p (0b011011#6 ++ regBits rd ++ regBits rs ++ off) = .ok (.ble rd rs off) ∧
      decode p (0b011100#6 ++ regBits rd ++ regBits rs ++ off) = .ok (.blt rd rs off)) ∧
    BranchesOn (exec (.bge rd rs off) s) s ((s.readReg rd).toInt ≥ (s.readReg rs).toInt) off ∧
    BranchesOn (exec (.bgt rd rs off) s) s ((s.readReg rd).toInt > (s.readReg rs).toInt) off ∧
    BranchesOn (exec (.ble rd rs off) s) s ((s.readReg rd).toInt ≤ (s.readReg rs).toInt) off ∧
    BranchesOn (exec (.blt rd rs off) s) s ((s.readReg rd).toInt < (s.readReg rs).toInt) off

/-- BGEU (R178), BGTU (R180), BLEU (R182), BLTU (R184): the unsigned values are compared, `x[rd]` against `x[rs]`; that the
offset counts from the branch itself is decision D27 (log 18). -/
def Obligations.UnsignedBranches : Prop :=
  ∀ (rd rs : Reg) (off : Half) (s : State),
    (∀ p, decode p (0b100010#6 ++ regBits rd ++ regBits rs ++ off) = .ok (.bgeu rd rs off) ∧
      decode p (0b100011#6 ++ regBits rd ++ regBits rs ++ off) = .ok (.bgtu rd rs off) ∧
      decode p (0b100100#6 ++ regBits rd ++ regBits rs ++ off) = .ok (.bleu rd rs off) ∧
      decode p (0b100101#6 ++ regBits rd ++ regBits rs ++ off) = .ok (.bltu rd rs off)) ∧
    BranchesOn (exec (.bgeu rd rs off) s) s ((s.readReg rd).toNat ≥ (s.readReg rs).toNat) off ∧
    BranchesOn (exec (.bgtu rd rs off) s) s ((s.readReg rd).toNat > (s.readReg rs).toNat) off ∧
    BranchesOn (exec (.bleu rd rs off) s) s ((s.readReg rd).toNat ≤ (s.readReg rs).toNat) off ∧
    BranchesOn (exec (.bltu rd rs off) s) s ((s.readReg rd).toNat < (s.readReg rs).toNat) off

/-! ### System (45_system.md; 60_exceptions.md) -/

/-- ERET (R190): the PC is set to the saved address and nothing else changes; without a saved address it raises
`EretWithoutException`. The word 0xF8000000 is decision D2 and the fault decision D12 (log 6, log 12). -/
def Obligations.EretResumesSavedAddress : Prop :=
  ∀ s : State, (∀ p, decode p 0xF8000000 = .ok .eret) ∧
    (∀ a, s.epc = some a → ∃ t, exec .eret s = .next t ∧ OnlyJumps s t a) ∧
    (s.epc = none → exec .eret s = .fault .eretWithoutException)

/-- HALT (R192): the halt line is asserted, nothing else changes, and no step follows. That `pc` stays is decision D18 (log
21), the refusal's name is the model's (log 8). -/
def Obligations.HaltAssertsHaltLine : Prop :=
  ∀ s : State, (∀ p, decode p 0xFC000000 = .ok .halt) ∧
    ∃ t, exec .halt s = .next t ∧ t.halted = true ∧ t.pc = s.pc ∧ SameRegs s t ∧ SameMemory s t ∧
      t.epc = s.epc ∧ t.platform = s.platform ∧ step t = .refused .halted

/-- The model's operation of exception entry, and ERET after it. The manual's one sentence (60_exceptions.md R200) fixes that an address is
saved, that control goes to the handler and that ERET resumes at the saved address. The rest is the model's choice: that entry leaves
registers, memory, halt line and parameters unchanged is deduced (log 7; R204 says that the source does not give it), an address saved
before is overwritten (log 33), and no step calls the operation (log 6, decision D12). Handler and saved address are arguments, as the
spec gives neither (R204, log 7). -/
def Obligations.ExceptionEntryAndReturn : Prop :=
  ∀ (saved handler : Word) (s u : State),
    (enterException saved handler s).epc = some saved ∧ (enterException saved handler s).pc = handler ∧
    (enterException saved handler s).halted = s.halted ∧ (enterException saved handler s).platform = s.platform ∧
    SameRegs s (enterException saved handler s) ∧
    SameMemory s (enterException saved handler s) ∧
    (u.epc = (enterException saved handler s).epc → ∃ t, exec .eret u = .next t ∧ OnlyJumps u t saved)

/-! ### Reset (10_state.md R35; 70_reset_and_hazards.md R230, R231) -/

/-- What a reset with given parameters, image and `RESET_PC` leaves (R230, R233), but for the registers R1 to R31, whose value
is the model's (log 1): the halt line clear, `pc` at `RESET_PC`, R0 zero, `epc` unwritten, memory the host's image, the
parameters those given; and a halted CPU runs again. -/
def Obligations.ResetClearsHaltAndStartsAtVector : Prop :=
  ∀ (p : Platform) (vector : Word) (image : Memory),
    (State.boot p vector image).halted = false ∧ (State.boot p vector image).pc = vector ∧
    (State.boot p vector image).readReg 0 = 0 ∧ (State.boot p vector image).epc = none ∧
    (State.boot p vector image).mem = image ∧ (State.boot p vector image).platform = p ∧
    step (State.boot p vector image) ≠ .refused .halted

/-- `State.reset` is such a reset, with no image and with parameters that satisfy R231 and R35: `RESET_PC` a multiple of 4 whose
four bytes lie in `MEM_MAP` (and are program text), `RESERVED_NONZERO` and `SMC_POLICY` at the
defaults that the spec decides (30_encoding.md R87, decision D3, log 9; 20_memory.md R56, decision D17, log 10). The numbers of
`RESET_PC` and `MEM_MAP` are the model's (log 2, log 3). -/
def Obligations.ResetStateMeetsItsConstraints : Prop :=
  State.reset = State.boot State.reset.platform State.reset.pc [] ∧ State.reset.pc.toNat % 4 = 0 ∧
  (∀ k, k < 4 → isText State.reset.platform (State.reset.pc.toNat + k) = true) ∧
  State.reset.platform.reservedNonzero = .fault ∧ State.reset.platform.smcPolicy = .refuse

/-! ### Pseudo-instructions and the assembler (30_encoding.md R90 to R92) -/

/-- NEG (R104), LLI (R121), MOVE (R123), NOT (R138): the translation and the result of each. -/
def Obligations.OneWordPseudoResults : Prop :=
  ∀ (rd rs : Reg) (c : Half) (s : State),
    expand (.neg rd rs) = [.sub rd 0 rs] ∧ expand (.lli rd c) = [.ori rd 0 c] ∧
    expand (.move rd rs) = [.add rd rs 0] ∧ expand (.not rd rs) = [.nor rd rs rs] ∧
    (∃ t, execPseudo (.neg rd rs) s = .next t ∧ WritesReg s t rd (- s.readReg rs)) ∧
    (∃ t, execPseudo (.lli rd c) s = .next t ∧ WritesReg s t rd (0#16 ++ c)) ∧
    (∃ t, execPseudo (.move rd rs) s = .next t ∧ WritesReg s t rd (s.readReg rs)) ∧
    (∃ t, execPseudo (.not rd rs) s = .next t ∧ WritesReg s t rd (~~~ s.readReg rs))

/-- LI (R122): it is translated to LUI and ORI, and the two instructions together load the 32-bit constant and advance by 8. -/
def Obligations.LiLoadsWholeConstant : Prop :=
  ∀ (rd : Reg) (c : Word) (s : State),
    expand (.li rd c) = [.lui rd (c.extractLsb' 16 16), .ori rd rd (c.extractLsb' 0 16)] ∧
    ∃ t, execPseudo (.li rd c) s = .next t ∧ t.readReg rd = (if rd = 0 then 0 else c) ∧
      (∀ r, r ≠ rd → t.readReg r = s.readReg r) ∧ SameMemory s t ∧ SameSystem s t ∧ t.pc = s.pc + 8

/-- BEQZ (R174), BNEZ (R176), RET (R185), NOP (R191): the translation and the effect of each; that a branch counts from itself is
decision D27 (log 18), and the zero reserved bits of NOP's word are decision D3 (log 9). -/
def Obligations.TransferPseudosAndNop : Prop :=
  ∀ (rd : Reg) (off : Half) (s : State),
    expand (.beqz rd off) = [.beq rd 0 off] ∧ expand (.bnez rd off) = [.bne rd 0 off] ∧
    expand .ret = [.jr 31] ∧ expand .nop = [.add 0 0 0] ∧
    BranchesOn (execPseudo (.beqz rd off) s) s (s.readReg rd = 0) off ∧
    BranchesOn (execPseudo (.bnez rd off) s) s (s.readReg rd ≠ 0) off ∧
    (∃ t, execPseudo .ret s = .next t ∧ OnlyJumps s t (s.readReg 31)) ∧
    (∃ t, execPseudo .nop s = .next t ∧ OnlyJumps s t (s.pc + 4)) ∧ (expand .nop).map encode = [0x00000000]

/-- Spellings (30_encoding.md R90, in part derived there; log 25). A comment changes nothing. A number in decimal digits is read as
that number, and `$r<n>` and `R<n>` as register `n`. The text of each of the 51 mnemonics, in lower and in upper case, is read as that
mnemonic. The manual's examples, a memory operand and a line with a comment are read as they stand. -/
def Obligations.CommentsAndSpellings : Prop :=
  (∀ (names : Names) (t c : Text), parseLine names (t ++ '#' :: c) = parseLine names t) ∧
  (∀ n : Nat, parseNat (Nat.toDigits 10 n) = some n ∧ parseReg ('$' :: 'r' :: Nat.toDigits 10 n) = some n ∧
    parseReg ('R' :: Nat.toDigits 10 n) = some n) ∧
  (∀ e, e ∈ (
    [("add", .add), ("addi", .addi), ("sub", .sub), ("subi", .subi), ("neg", .neg), ("mulu", .mulu), ("mul", .mul),
     ("divu", .divu), ("div", .div), ("lui", .lui), ("lli", .lli), ("li", .li), ("move", .move), ("sll", .sll),
     ("slli", .slli), ("srl", .srl), ("srli", .srli), ("and", .and), ("andi", .andi), ("or", .or), ("ori", .ori),
     ("not", .not), ("nor", .nor), ("xor", .xor), ("lb", .lb), ("lbu", .lbu), ("lh", .lh), ("lhu", .lhu), ("lw", .lw),
     ("sb", .sb), ("sh", .sh), ("sw", .sw), ("jr", .jr), ("call", .call), ("b", .b), ("beq", .beq), ("beqz", .beqz),
     ("bne", .bne), ("bnez", .bnez), ("bge", .bge), ("bgeu", .bgeu), ("bgt", .bgt), ("bgtu", .bgtu), ("ble", .ble),
     ("bleu", .bleu), ("blt", .blt), ("bltu", .bltu), ("ret", .ret), ("eret", .eret), ("nop", .nop), ("halt", .halt)] :
      List (String × Mnemonic)) →
    parseMnemonic e.1.toList = some e.2 ∧ parseMnemonic (e.1.toList.map Char.toUpper) = some e.2) ∧
  parseLine [] "addi $r8, $r7, 5  # $r8 <- $r7 + 5".toList = some (.instruction ⟨.addi, [.reg 8, .reg 7, .num 5]⟩) ∧
  parseLine [] ".define TWO, 2".toList = some (.define "TWO".toList 2) ∧
  parseLine [("TWO".toList, 2)] "addi $r8, $r7, TWO".toList = some (.instruction ⟨.addi, [.reg 8, .reg 7, .num 2]⟩) ∧
  parseLine [] "SW R5, -4(R29)".toList = some (.instruction ⟨.sw, [.reg 5, .mem (-4) 29]⟩) ∧
  parseLine [] "# nothing".toList = some .blank

/-- The assembler takes exactly the well-formed lines (30_encoding.md R90, R92; decision D24, log 25), and the checks of a well-formed
line are the ranges that R90 and decision D24 give. The range of `const32` is the model's deduction (log 25). -/
def Obligations.AssembleTakesWellFormedLines : Prop :=
  (∀ l : Line, (assemble l).isSome = l.wf) ∧ (∀ n : Nat, regOk n = true ↔ n < 32) ∧
  ∀ v : Int,
    (const16Ok v = true ↔ 0 ≤ v ∧ v ≤ 65535) ∧ (off16Ok v = true ↔ -32768 ≤ v ∧ v ≤ 32767) ∧
    (const26Ok v = true ↔ 0 ≤ v ∧ v ≤ 67108863) ∧ (off26Ok v = true ↔ -33554432 ≤ v ∧ v ≤ 33554431) ∧
    (const32Ok v = true ↔ 0 ≤ v ∧ v ≤ 4294967295)

/-- An operand is taken exactly where it is in range, and is then held by its field: constants unsigned, offsets in two's complement,
nothing truncated (30_encoding.md R90, R92; decision D24). The range of LI's `const32` is the model's deduction (log 25). -/
def Obligations.OperandFieldsHoldTheirValues : Prop :=
  ∀ v : Int,
    ((asmConst16 v).isSome ↔ 0 ≤ v ∧ v ≤ 65535) ∧ (∀ c, asmConst16 v = some c → (c.toNat : Int) = v) ∧
    ((asmOff16 v).isSome ↔ -32768 ≤ v ∧ v ≤ 32767) ∧ (∀ o, asmOff16 v = some o → o.toInt = v) ∧
    ((asmConst26 v).isSome ↔ 0 ≤ v ∧ v ≤ 67108863) ∧ (∀ c, asmConst26 v = some c → (c.toNat : Int) = v) ∧
    ((asmOff26 v).isSome ↔ -33554432 ≤ v ∧ v ≤ 33554431) ∧ (∀ o, asmOff26 v = some o → o.toInt = v) ∧
    ((asmConst32 v).isSome ↔ 0 ≤ v ∧ v ≤ 4294967295) ∧ (∀ c, asmConst32 v = some c → (c.toNat : Int) = v)

/-- What the assembler writes for a label makes the hardware reach the label (30_encoding.md R90, a derived clause; R82, R83). -/
def Obligations.LabelOperandsReachTheirTargets : Prop :=
  ∀ addr target : Word,
    (∀ off, labelOff16 addr.toNat target.toNat = some off → branchTarget addr off = target) ∧
    (∀ off, labelOff26 addr.toNat target.toNat = some off → farBranchTarget addr off = target) ∧
    (∀ c, labelConst26 target.toNat = some c → callTarget c = target)

/-! ### Rules about every instruction -/

/-- No instruction writes a register outside its destinations: the `rd` field, `rd + 1` for the two-result instructions (none
for 31), R31 for CALL (10_state.md R20, R23, R24; the "writes" column of spec/opcode_table.json). -/
def Obligations.OnlyDestinationRegistersChange : Prop :=
  ∀ (i : Instr) (s t : State) (r : Reg), exec i s = .next t → r ∉ destinations i → t.readReg r = s.readReg r

/-- Only SB, SH and SW change memory, and only the bytes of their access (20_memory.md R43, R48). -/
def Obligations.OnlyStoredBytesChange : Prop :=
  ∀ (i : Instr) (s t : State) (a : Nat), exec i s = .next t →
    (∀ ea n, storeRange i s = some (ea, n) → a < ea.toNat ∨ ea.toNat + n ≤ a) → t.byteAt a = s.byteAt a

/-- No instruction writes `epc` or the parameters of the run, and HALT alone asserts the halt line, which none clears
(10_state.md R28, R29, R36; 60_exceptions.md R204). -/
def Obligations.OnlyHaltTouchesSystemState : Prop :=
  ∀ (i : Instr) (s t : State), exec i s = .next t →
    t.epc = s.epc ∧ t.platform = s.platform ∧ t.halted = (s.halted || decide (i = .halt))

/-- Which instruction can stop on what (60_exceptions.md R201, rows 6 to 9, and the refusal of 20_memory.md R56); row 5 is not
raised (log 1). -/
def Obligations.StopsAreTheListedOnes : Prop :=
  ∀ (i : Instr) (s : State),
    (∀ f, exec i s = .fault f →
      (f = .divideByZero ∧ ∃ rd rs rt, (i = .divu rd rs rt ∨ i = .div rd rs rt) ∧ s.readReg rt = 0) ∨
      (f = .eretWithoutException ∧ i = .eret ∧ s.epc = none) ∨
      (∃ ea n, accessOf i s = some (ea, n) ∧ f = .misalignedData ea ∧ ea.toNat % n ≠ 0) ∨
      (∃ ea n, accessOf i s = some (ea, n) ∧ f = .accessFault ea ∧ ea.toNat % n = 0 ∧
        ∃ k, k < n ∧ s.byteAt (ea.toNat + k) = none)) ∧
    (∀ r, exec i s = .refused r →
      ∃ ea n, storeRange i s = some (ea, n) ∧ r = .storeToProgramText ea ∧ s.platform.smcPolicy = .refuse ∧
        ∃ k, k < n ∧ isText s.platform (ea.toNat + k) = true)

/-- Every instruction but DIVU, DIV, the loads, the stores and ERET completes in every state (60_exceptions.md R201:
"Instructions that can raise none of 5 to 9 by their own semantics: all the others"). -/
def Obligations.OtherInstructionsAlwaysComplete : Prop :=
  ∀ (i : Instr) (s : State), cannotStop i = true → ∃ t, exec i s = .next t

/-- From an aligned `pc` every instruction but JR and ERET leads to an aligned `pc` (20_memory.md R47; 44_control_transfer.md
R186). -/
def Obligations.PcStaysAligned : Prop :=
  ∀ (i : Instr) (s t : State), exec i s = .next t → copiesIntoPc i = false → s.pc.toNat % 4 = 0 → t.pc.toNat % 4 = 0

/-- Mixed-width views (20_memory.md R58, a derived rule): after SW of a word, its bytes, its halfwords and the word are read
back at their places. -/
def Obligations.StoredWordReadsBackAtEveryWidth : Prop :=
  ∀ (rd rs : Reg) (off : Half) (s t : State), exec (.sw rd rs off) s = .next t →
    (∀ k : Nat, k < 4 → memRead8 t (effectiveAddress rd off s + BitVec.ofNat 32 k) =
      .ok ((s.readReg rs).extractLsb' (8 * k) 8)) ∧
    memRead16 t (effectiveAddress rd off s) = .ok ((s.readReg rs).extractLsb' 0 16) ∧
    memRead16 t (effectiveAddress rd off s + 2) = .ok ((s.readReg rs).extractLsb' 16 16) ∧
    memRead32 t (effectiveAddress rd off s) = .ok (s.readReg rs)

/-! ### Invariants and runs -/

/-- Every step keeps the invariant: memory in its canonical form and inside `MEM_MAP` (10_state.md R33), the place of R0 zero
(R21). -/
def Obligations.StepKeepsInvariant : Prop := ∀ s t : State, Inv s → step s = .next t → Inv t

/-- The state after reset meets the invariant, and so does every reset with an image in canonical form inside `MEM_MAP`. -/
def Obligations.ResetMeetsInvariant : Prop :=
  Inv State.reset ∧
  ∀ (p : Platform) (vector : Word) (image : Memory), image.wf = true →
    image.all (fun c => isMapped p c.1) = true → Inv (State.boot p vector image)

/-- Under `SMC_POLICY` refuse no step changes a byte of program text, nor what is program text (20_memory.md R56, decision D17):
"the program is immutable during a run". From every state. -/
def Obligations.StepKeepsProgramText : Prop :=
  ∀ s t : State, step s = .next t → s.platform.smcPolicy = .refuse →
    ∀ a, isText t.platform a = isText s.platform a ∧ (isText s.platform a = true → t.byteAt a = s.byteAt a)

/-- So along a run of any length from any state: wherever the run has come to, a fetch at an address that was program text at
the start reads the word that was there at the start (20_memory.md R56). -/
def Obligations.RunFetchesTheLoadedProgram : Prop :=
  ∀ (n : Nat) (s t : State), Host.Core.run Sys2Proof.core n s = .next t → s.platform.smcPolicy = .refuse →
    ∀ w, fetch t = .ok w → s.wordAt t.pc.toNat = some w

/-- A run ends in `halted` only by executing HALT (70_reset_and_hazards.md R241; 10_state.md R29): from a running state, the
state it ends in is the next state of a step from a running state that the run itself came to in fewer than `n` steps, and the
instruction of that step is HALT. -/
def Obligations.RunEndsOnlyByHalt : Prop :=
  ∀ (n : Nat) (s t : State), s.halted = false → runFor n s = .halted t →
    ∃ k u w, k < n ∧ Host.Core.run Sys2Proof.core k s = .next u ∧ u.halted = false ∧
      fetch u = .ok w ∧ decode u.platform.reservedNonzero w = .ok .halt ∧ step u = .next t

/-! ### What the assembler writes (30_encoding.md R90 to R92) -/

/-- What a line with operands that fit assembles to (30_encoding.md R90 to R92): the operands go to the fields of their names, in a store
the data register, which comes first, to `rs` and the base to `rd`; a pseudo-instruction gives its expansion. Each line written here is
taken. -/
def Obligations.AssembledLinesAreTheirInstructions : Prop :=
  ∀ (d s t : Reg) (c o : Half) (c26 o26 : BitVec 26) (w : Word),
    (∀ e, e ∈ ([(.add, .add), (.sub, .sub), (.mulu, .mulu), (.mul, .mul), (.divu, .divu), (.div, .div), (.sll, .sll), (.srl, .srl),
        (.and, .and), (.or, .or), (.nor, .nor), (.xor, .xor)] : List (Mnemonic × (Reg → Reg → Reg → Instr))) →
      assemble ⟨e.1, [.reg d, .reg s, .reg t]⟩ = some [e.2 d s t]) ∧
    (∀ e, e ∈ ([(.addi, .addi), (.subi, .subi), (.andi, .andi), (.ori, .ori), (.slli, .slli), (.srli, .srli)] :
        List (Mnemonic × (Reg → Reg → Half → Instr))) →
      assemble ⟨e.1, [.reg d, .reg s, .num c.toNat]⟩ = some [e.2 d s c]) ∧
    (∀ e, e ∈ ([(.lb, .lb), (.lbu, .lbu), (.lh, .lh), (.lhu, .lhu), (.lw, .lw)] :
        List (Mnemonic × (Reg → Reg → Half → Instr))) →
      assemble ⟨e.1, [.reg d, .mem o.toInt s]⟩ = some [e.2 d s o]) ∧
    (∀ e, e ∈ ([(.sb, .sb), (.sh, .sh), (.sw, .sw)] : List (Mnemonic × (Reg → Reg → Half → Instr))) →
      assemble ⟨e.1, [.reg s, .mem o.toInt d]⟩ = some [e.2 d s o]) ∧
    (∀ e, e ∈ ([(.beq, .beq), (.bne, .bne), (.bge, .bge), (.bgeu, .bgeu), (.bgt, .bgt), (.bgtu, .bgtu), (.ble, .ble), (.bleu, .bleu),
        (.blt, .blt), (.bltu, .bltu)] : List (Mnemonic × (Reg → Reg → Half → Instr))) →
      assemble ⟨e.1, [.reg d, .reg s, .num o.toInt]⟩ = some [e.2 d s o]) ∧
    assemble ⟨.lui, [.reg d, .num c.toNat]⟩ = some [.lui d c] ∧ assemble ⟨.jr, [.reg d]⟩ = some [.jr d] ∧
    assemble ⟨.call, [.num c26.toNat]⟩ = some [.call c26] ∧ assemble ⟨.b, [.num o26.toInt]⟩ = some [.b o26] ∧
    assemble ⟨.eret, []⟩ = some [.eret] ∧ assemble ⟨.halt, []⟩ = some [.halt] ∧
    assemble ⟨.neg, [.reg d, .reg s]⟩ = some (expand (.neg d s)) ∧ assemble ⟨.lli, [.reg d, .num c.toNat]⟩ = some (expand (.lli d c)) ∧
    assemble ⟨.li, [.reg d, .num w.toNat]⟩ = some (expand (.li d w)) ∧
    assemble ⟨.move, [.reg d, .reg s]⟩ = some (expand (.move d s)) ∧ assemble ⟨.not, [.reg d, .reg s]⟩ = some (expand (.not d s)) ∧
    assemble ⟨.beqz, [.reg d, .num o.toInt]⟩ = some (expand (.beqz d o)) ∧
    assemble ⟨.bnez, [.reg d, .num o.toInt]⟩ = some (expand (.bnez d o)) ∧
    assemble ⟨.ret, []⟩ = some (expand .ret) ∧ assemble ⟨.nop, []⟩ = some (expand .nop)
end

