-- ==== Sys2Proof/Tests/Slice0.lean ====
section
/-! SUPPORT. The model's own tests. Expected results are those of 95_test_vectors.md (its parts 2.1 to 2.7), or hand calculation
from the rule named; then the witnesses, which show for each statement with hypotheses a concrete state and operands that meet
them together. -/

namespace Sys2Proof.Tests

open Sys2Proof Sys2Proof.Machine

/-! ### Helpers -/

/-- The data image of 95_test_vectors.md section 2.5. -/
def dataImage : Memory :=
  [(0x2000, 0x80), (0x2001, 0xFF), (0x2002, 0x34), (0x2003, 0x12), (0x2004, 0x7F), (0x2005, 0x00), (0x2006, 0x00), (0x2007, 0x80)]

/-- One instruction word at 0x1000, eight bytes of data, and one byte of data that nothing has written. -/
def testPlatform : Platform := ⟨[⟨0x1000, 4, .text⟩, ⟨0x2000, 9, .data⟩], .fault, .refuse⟩

/-- A CPU about to execute a word, with some registers written. -/
def machine (w : Word) (regs : List (Reg × Word)) : State :=
  regs.foldl (fun s p => s.writeReg p.1 p.2) (State.boot testPlatform 0x1000 (dataImage.writeBytes 0x1000 (bytesOfWord w)))

/-- Registers and `pc` after an instruction. -/
def regsAfter (r : Result) (rs : List Reg) : Option (List Word × Word) :=
  match r with
  | .next t => some (rs.map t.readReg, t.pc)
  | _ => none

/-- Bytes of memory and `pc` after an instruction. -/
def bytesAfter (r : Result) (as : List Nat) : Option (List (Option Byte) × Word) :=
  match r with
  | .next t => some (as.map t.byteAt, t.pc)
  | _ => none

/-- The halt line after an instruction. -/
def haltAfter (r : Result) : Option Bool :=
  match r with
  | .next t => some t.halted
  | _ => none

/-- The fault of an instruction. -/
def faultOf (r : Result) : Option Fault :=
  match r with
  | .fault f => some f
  | _ => none

/-- The refusal of an instruction. -/
def refusalOf (r : Result) : Option Refusal :=
  match r with
  | .refused f => some f
  | _ => none

/-- The word a fetch reads. -/
def fetched (s : State) : Option Word :=
  match fetch s with
  | .ok w => some w
  | .error _ => none

/-! ### Decoding and encoding: one word for each instruction (95_test_vectors.md 2.1), its fields written out from the
formats of 30_encoding.md R72 to R77 -/

theorem test_decode_add : decodeTableWord 32 (0b000000#6 ++ 0b00011#5 ++ 0b00001#5 ++ 0b00010#5 ++ 0#11).toNat = some (.add 3 1 2) ∧
    encode (.add 3 1 2) = 0x00611000 := by decide
theorem test_decode_addi : decodeTableWord 32 (0b100000#6 ++ 0b00011#5 ++ 0b00001#5 ++ 0b0000000000010000#16).toNat = some (.addi 3 1 0x0010) ∧
    encode (.addi 3 1 0x0010) = 0x80610010 := by decide
theorem test_decode_sub : decodeTableWord 32 (0b000001#6 ++ 0b00011#5 ++ 0b00001#5 ++ 0b00010#5 ++ 0#11).toNat = some (.sub 3 1 2) ∧
    encode (.sub 3 1 2) = 0x04611000 := by decide
theorem test_decode_subi : decodeTableWord 32 (0b100001#6 ++ 0b00011#5 ++ 0b00001#5 ++ 0b0000000000010000#16).toNat = some (.subi 3 1 0x0010) ∧
    encode (.subi 3 1 0x0010) = 0x84610010 := by decide
theorem test_decode_mulu : decodeTableWord 32 (0b000010#6 ++ 0b00011#5 ++ 0b00001#5 ++ 0b00010#5 ++ 0#11).toNat = some (.mulu 3 1 2) ∧
    encode (.mulu 3 1 2) = 0x08611000 := by decide
theorem test_decode_mul : decodeTableWord 32 (0b000011#6 ++ 0b00011#5 ++ 0b00001#5 ++ 0b00010#5 ++ 0#11).toNat = some (.mul 3 1 2) ∧
    encode (.mul 3 1 2) = 0x0C611000 := by decide
theorem test_decode_divu : decodeTableWord 32 (0b000100#6 ++ 0b00011#5 ++ 0b00001#5 ++ 0b00010#5 ++ 0#11).toNat = some (.divu 3 1 2) ∧
    encode (.divu 3 1 2) = 0x10611000 := by decide
theorem test_decode_div : decodeTableWord 32 (0b000101#6 ++ 0b00011#5 ++ 0b00001#5 ++ 0b00010#5 ++ 0#11).toNat = some (.div 3 1 2) ∧
    encode (.div 3 1 2) = 0x14611000 := by decide
theorem test_decode_lui : decodeTableWord 32 (0b000110#6 ++ 0b00011#5 ++ 0#5 ++ 0b0000000000010000#16).toNat = some (.lui 3 0x0010) ∧
    encode (.lui 3 0x0010) = 0x18600010 := by decide
theorem test_decode_sll : decodeTableWord 32 (0b000111#6 ++ 0b00011#5 ++ 0b00001#5 ++ 0b00010#5 ++ 0#11).toNat = some (.sll 3 1 2) ∧
    encode (.sll 3 1 2) = 0x1C611000 := by decide
theorem test_decode_slli : decodeTableWord 32 (0b101011#6 ++ 0b00011#5 ++ 0b00001#5 ++ 0b0000000000010000#16).toNat = some (.slli 3 1 0x0010) ∧
    encode (.slli 3 1 0x0010) = 0xAC610010 := by decide
theorem test_decode_srl : decodeTableWord 32 (0b001000#6 ++ 0b00011#5 ++ 0b00001#5 ++ 0b00010#5 ++ 0#11).toNat = some (.srl 3 1 2) ∧
    encode (.srl 3 1 2) = 0x20611000 := by decide
theorem test_decode_srli : decodeTableWord 32 (0b101100#6 ++ 0b00011#5 ++ 0b00001#5 ++ 0b0000000000010000#16).toNat = some (.srli 3 1 0x0010) ∧
    encode (.srli 3 1 0x0010) = 0xB0610010 := by decide
theorem test_decode_and : decodeTableWord 32 (0b001001#6 ++ 0b00011#5 ++ 0b00001#5 ++ 0b00010#5 ++ 0#11).toNat = some (.and 3 1 2) ∧
    encode (.and 3 1 2) = 0x24611000 := by decide
theorem test_decode_andi : decodeTableWord 32 (0b101001#6 ++ 0b00011#5 ++ 0b00001#5 ++ 0b0000000000010000#16).toNat = some (.andi 3 1 0x0010) ∧
    encode (.andi 3 1 0x0010) = 0xA4610010 := by decide
theorem test_decode_or : decodeTableWord 32 (0b001010#6 ++ 0b00011#5 ++ 0b00001#5 ++ 0b00010#5 ++ 0#11).toNat = some (.or 3 1 2) ∧
    encode (.or 3 1 2) = 0x28611000 := by decide
theorem test_decode_ori : decodeTableWord 32 (0b101010#6 ++ 0b00011#5 ++ 0b00001#5 ++ 0b0000000000010000#16).toNat = some (.ori 3 1 0x0010) ∧
    encode (.ori 3 1 0x0010) = 0xA8610010 := by decide
theorem test_decode_nor : decodeTableWord 32 (0b001011#6 ++ 0b00011#5 ++ 0b00001#5 ++ 0b00010#5 ++ 0#11).toNat = some (.nor 3 1 2) ∧
    encode (.nor 3 1 2) = 0x2C611000 := by decide
theorem test_decode_xor : decodeTableWord 32 (0b001100#6 ++ 0b00011#5 ++ 0b00001#5 ++ 0b00010#5 ++ 0#11).toNat = some (.xor 3 1 2) ∧
    encode (.xor 3 1 2) = 0x30611000 := by decide
theorem test_decode_lb : decodeTableWord 32 (0b001101#6 ++ 0b00011#5 ++ 0b00001#5 ++ 0b0000000000010000#16).toNat = some (.lb 3 1 0x0010) ∧
    encode (.lb 3 1 0x0010) = 0x34610010 := by decide
theorem test_decode_lbu : decodeTableWord 32 (0b010000#6 ++ 0b00011#5 ++ 0b00001#5 ++ 0b0000000000010000#16).toNat = some (.lbu 3 1 0x0010) ∧
    encode (.lbu 3 1 0x0010) = 0x40610010 := by decide
theorem test_decode_lh : decodeTableWord 32 (0b001110#6 ++ 0b00011#5 ++ 0b00001#5 ++ 0b0000000000010000#16).toNat = some (.lh 3 1 0x0010) ∧
    encode (.lh 3 1 0x0010) = 0x38610010 := by decide
theorem test_decode_lhu : decodeTableWord 32 (0b010001#6 ++ 0b00011#5 ++ 0b00001#5 ++ 0b0000000000010000#16).toNat = some (.lhu 3 1 0x0010) ∧
    encode (.lhu 3 1 0x0010) = 0x44610010 := by decide
theorem test_decode_lw : decodeTableWord 32 (0b001111#6 ++ 0b00011#5 ++ 0b00001#5 ++ 0b0000000000010000#16).toNat = some (.lw 3 1 0x0010) ∧
    encode (.lw 3 1 0x0010) = 0x3C610010 := by decide
theorem test_decode_sb : decodeTableWord 32 (0b010010#6 ++ 0b00001#5 ++ 0b00011#5 ++ 0b0000000000010000#16).toNat = some (.sb 1 3 0x0010) ∧
    encode (.sb 1 3 0x0010) = 0x48230010 := by decide
theorem test_decode_sh : decodeTableWord 32 (0b010011#6 ++ 0b00001#5 ++ 0b00011#5 ++ 0b0000000000010000#16).toNat = some (.sh 1 3 0x0010) ∧
    encode (.sh 1 3 0x0010) = 0x4C230010 := by decide
theorem test_decode_sw : decodeTableWord 32 (0b010100#6 ++ 0b00001#5 ++ 0b00011#5 ++ 0b0000000000010000#16).toNat = some (.sw 1 3 0x0010) ∧
    encode (.sw 1 3 0x0010) = 0x50230010 := by decide
theorem test_decode_jr : decodeTableWord 32 (0b010110#6 ++ 0b00011#5 ++ 0#21).toNat = some (.jr 3) ∧
    encode (.jr 3) = 0x58600000 := by decide
theorem test_decode_call : decodeTableWord 32 (0b011101#6 ++ 0b00000000000000000000010000#26).toNat = some (.call 0x0000010) ∧
    encode (.call 0x0000010) = 0x74000010 := by decide
theorem test_decode_b : decodeTableWord 32 (0b010101#6 ++ 0b00000000000000000000010000#26).toNat = some (.b 0x0000010) ∧
    encode (.b 0x0000010) = 0x54000010 := by decide
theorem test_decode_beq : decodeTableWord 32 (0b010111#6 ++ 0b00011#5 ++ 0b00001#5 ++ 0b0000000000010000#16).toNat = some (.beq 3 1 0x0010) ∧
    encode (.beq 3 1 0x0010) = 0x5C610010 := by decide
theorem test_decode_bne : decodeTableWord 32 (0b011000#6 ++ 0b00011#5 ++ 0b00001#5 ++ 0b0000000000010000#16).toNat = some (.bne 3 1 0x0010) ∧
    encode (.bne 3 1 0x0010) = 0x60610010 := by decide
theorem test_decode_bge : decodeTableWord 32 (0b011001#6 ++ 0b00011#5 ++ 0b00001#5 ++ 0b0000000000010000#16).toNat = some (.bge 3 1 0x0010) ∧
    encode (.bge 3 1 0x0010) = 0x64610010 := by decide
theorem test_decode_bgeu : decodeTableWord 32 (0b100010#6 ++ 0b00011#5 ++ 0b00001#5 ++ 0b0000000000010000#16).toNat = some (.bgeu 3 1 0x0010) ∧
    encode (.bgeu 3 1 0x0010) = 0x88610010 := by decide
theorem test_decode_bgt : decodeTableWord 32 (0b011010#6 ++ 0b00011#5 ++ 0b00001#5 ++ 0b0000000000010000#16).toNat = some (.bgt 3 1 0x0010) ∧
    encode (.bgt 3 1 0x0010) = 0x68610010 := by decide
theorem test_decode_bgtu : decodeTableWord 32 (0b100011#6 ++ 0b00011#5 ++ 0b00001#5 ++ 0b0000000000010000#16).toNat = some (.bgtu 3 1 0x0010) ∧
    encode (.bgtu 3 1 0x0010) = 0x8C610010 := by decide
theorem test_decode_ble : decodeTableWord 32 (0b011011#6 ++ 0b00011#5 ++ 0b00001#5 ++ 0b0000000000010000#16).toNat = some (.ble 3 1 0x0010) ∧
    encode (.ble 3 1 0x0010) = 0x6C610010 := by decide
theorem test_decode_bleu : decodeTableWord 32 (0b100100#6 ++ 0b00011#5 ++ 0b00001#5 ++ 0b0000000000010000#16).toNat = some (.bleu 3 1 0x0010) ∧
    encode (.bleu 3 1 0x0010) = 0x90610010 := by decide
theorem test_decode_blt : decodeTableWord 32 (0b011100#6 ++ 0b00011#5 ++ 0b00001#5 ++ 0b0000000000010000#16).toNat = some (.blt 3 1 0x0010) ∧
    encode (.blt 3 1 0x0010) = 0x70610010 := by decide
theorem test_decode_bltu : decodeTableWord 32 (0b100101#6 ++ 0b00011#5 ++ 0b00001#5 ++ 0b0000000000010000#16).toNat = some (.bltu 3 1 0x0010) ∧
    encode (.bltu 3 1 0x0010) = 0x94610010 := by decide
theorem test_decode_eret : decodeTableWord 32 (0b111110#6 ++ 0#26).toNat = some (.eret) ∧
    encode (.eret) = 0xF8000000 := by decide
theorem test_decode_halt : decodeTableWord 32 (0b111111#6 ++ 0#26).toNat = some (.halt) ∧
    encode (.halt) = 0xFC000000 := by decide

/-! ### Steps (95_test_vectors.md 2.2 to 2.7); in `machine` a register not listed holds the model's value of log 1 -/

theorem test_add_wraps : regsAfter (step (machine 0x00611000 [(1, 0xFFFFFFFF), (2, 1)])) [3, 1] = some ([0, 0xFFFFFFFF], 0x1004) := by decide
theorem test_add_to_r0 : regsAfter (step (machine 0x00011000 [(1, 5), (2, 7)])) [0, 1] = some ([0, 5], 0x1004) := by decide
theorem test_addi_zero_extends : regsAfter (step (machine 0x8107FFFF [(7, 1)])) [8] = some ([0x10000], 0x1004) := by decide
theorem test_addi_wraps : regsAfter (step (machine 0x81070001 [(7, 0xFFFFFFFF)])) [8] = some ([0], 0x1004) := by decide
theorem test_sub_borrows : regsAfter (step (machine 0x04611000 [(1, 5), (2, 7)])) [3] = some ([0xFFFFFFFE], 0x1004) := by decide
theorem test_sub_signed_overflow : regsAfter (step (machine 0x04611000 [(1, 0x80000000), (2, 1)])) [3] = some ([0x7FFFFFFF], 0x1004) := by decide
theorem test_subi_borrows : regsAfter (step (machine 0x85070001 [(7, 0)])) [8] = some ([0xFFFFFFFF], 0x1004) := by decide
theorem test_subi_zero_extends : regsAfter (step (machine 0x8507FFFF [(7, 0x10000)])) [8] = some ([1], 0x1004) := by decide
theorem test_mulu_unsigned : regsAfter (step (machine 0x09073000 [(7, 0xFFFFFFFD), (6, 7)])) [8, 9] = some ([0xFFFFFFEB, 6], 0x1004) := by decide
theorem test_mulu_overlap : regsAfter (step (machine 0x08E74000 [(7, 0x80000000), (8, 4)])) [7, 8] = some ([0, 2], 0x1004) := by decide
theorem test_mul_signed : regsAfter (step (machine 0x0D073000 [(7, 0xFFFFFFFD), (6, 7)])) [8, 9] = some ([0xFFFFFFEB, 0xFFFFFFFF], 0x1004) := by decide
theorem test_mul_largest : regsAfter (step (machine 0x0D073000 [(7, 0x80000000), (6, 0x80000000)])) [8, 9] = some ([0, 0x40000000], 0x1004) := by decide
theorem test_divu_to_r0 : regsAfter (step (machine 0x10073000 [(7, 17), (6, 5)])) [0, 1, 9] = some ([0, 2, 0xA5A5A5A4], 0x1004) := by decide
theorem test_divu_to_r31 : regsAfter (step (machine 0x13E73000 [(7, 17), (6, 5)])) [31, 0] = some ([3, 0], 0x1004) := by decide
theorem test_div_truncates : regsAfter (step (machine 0x15073000 [(7, 0xFFFFFFF9), (6, 2)])) [8, 9] = some ([0xFFFFFFFD, 0xFFFFFFFF], 0x1004) := by decide
theorem test_div_by_zero : faultOf (step (machine 0x15073000 [(7, 0x80000000), (6, 0)])) = some (.divideByZero) := by decide
theorem test_lui : regsAfter (step (machine 0x18A01234 [(5, 0xFFFFFFFF)])) [5] = some ([0x12340000], 0x1004) := by decide
theorem test_lui_to_r0 : regsAfter (step (machine 0x18001234 [])) [0] = some ([0], 0x1004) := by decide
theorem test_sll_by_31 : regsAfter (step (machine 0x1C611000 [(1, 1), (2, 31)])) [3] = some ([0x80000000], 0x1004) := by decide
theorem test_sll_by_32 : regsAfter (step (machine 0x1C611000 [(1, 0x12345678), (2, 32)])) [3] = some ([0x12345678], 0x1004) := by decide
theorem test_slli_high_bits_ignored : regsAfter (step (machine 0xAC61FFE1 [(1, 0x12345678)])) [3] = some ([0x2468ACF0], 0x1004) := by decide
theorem test_slli_by_0 : regsAfter (step (machine 0xAC610000 [(1, 0x12345678)])) [3] = some ([0x12345678], 0x1004) := by decide
theorem test_srl_by_31 : regsAfter (step (machine 0x20611000 [(1, 0x80000000), (2, 31)])) [3] = some ([1], 0x1004) := by decide
theorem test_srl_by_36 : regsAfter (step (machine 0x20611000 [(1, 0xF0000000), (2, 36)])) [3] = some ([0x0F000000], 0x1004) := by decide
theorem test_srli_is_logical : regsAfter (step (machine 0xB0610004 [(1, 0x87654321)])) [3] = some ([0x08765432], 0x1004) := by decide
theorem test_srli_by_0 : regsAfter (step (machine 0xB0610000 [(1, 0x87654321)])) [3] = some ([0x87654321], 0x1004) := by decide
theorem test_and : regsAfter (step (machine 0x24611000 [(1, 0xFF00FF00), (2, 0x0FF00FF0)])) [3] = some ([0x0F000F00], 0x1004) := by decide
theorem test_andi_clears_upper : regsAfter (step (machine 0xA461FFFF [(1, 0x12345678)])) [3] = some ([0x5678], 0x1004) := by decide
theorem test_or : regsAfter (step (machine 0x28611000 [(1, 0xFF00FF00), (2, 0x0FF00FF0)])) [3] = some ([0xFFF0FFF0], 0x1004) := by decide
theorem test_ori_zero_extends : regsAfter (step (machine 0xA8618000 [(1, 0x12340000)])) [3] = some ([0x12348000], 0x1004) := by decide
theorem test_nor : regsAfter (step (machine 0x2C611000 [(1, 0xFF00FF00), (2, 0x0FF00FF0)])) [3] = some ([0x000F000F], 0x1004) := by decide
theorem test_xor : regsAfter (step (machine 0x30611000 [(1, 0xFF00FF00), (2, 0x0FF00FF0)])) [3] = some ([0xF0F0F0F0], 0x1004) := by decide
theorem test_lb_sign_extends : regsAfter (step (machine 0x34610000 [(1, 0x2000)])) [3] = some ([0xFFFFFF80], 0x1004) := by decide
theorem test_lbu_negative_offset : regsAfter (step (machine 0x4061FFFF [(1, 0x2008)])) [3] = some ([0x80], 0x1004) := by decide
theorem test_lh_sign_extends : regsAfter (step (machine 0x38610000 [(1, 0x2000)])) [3] = some ([0xFFFFFF80], 0x1004) := by decide
theorem test_lh_misaligned : faultOf (step (machine 0x38610001 [(1, 0x2000)])) = some (.misalignedData 0x2001) := by decide
theorem test_lhu_zero_extends : regsAfter (step (machine 0x44610006 [(1, 0x2000)])) [3] = some ([0x8000], 0x1004) := by decide
theorem test_lw_address_wraps : regsAfter (step (machine 0x3C617FFF [(1, 0xFFFFA005)])) [3] = some ([0x8000007F], 0x1004) := by decide
theorem test_lw_outside : faultOf (step (machine 0x3C610008 [(1, 0x2000)])) = some (.accessFault 0x2008) := by decide
theorem test_sb : bytesAfter (step (machine 0x48220001 [(1, 0x2000), (2, 0xAABBCCDD)])) [0x2000, 0x2001, 0x2002] = some ([some 0x80, some 0xDD, some 0x34], 0x1004) := by decide
theorem test_sh : bytesAfter (step (machine 0x4C220002 [(1, 0x2000), (2, 0xAABBCCDD)])) [0x2001, 0x2002, 0x2003, 0x2004] = some ([some 0xFF, some 0xDD, some 0xCC, some 0x7F], 0x1004) := by decide
theorem test_sw_of_its_base : bytesAfter (step (machine 0x50210000 [(1, 0x2000)])) [0x2000, 0x2001, 0x2002, 0x2003, 0x2004] = some ([some 0x00, some 0x20, some 0x00, some 0x00, some 0x7F], 0x1004) := by decide
theorem test_sw_misaligned : faultOf (step (machine 0x50220006 [(1, 0x2000), (2, 0xAABBCCDD)])) = some (.misalignedData 0x2006) := by decide
theorem test_jr_keeps_low_bits : regsAfter (step (machine 0x58A00000 [(5, 0x2002)])) [5] = some ([0x2002], 0x2002) := by decide
theorem test_call_farthest : regsAfter (step (machine 0x77FFFFFF [])) [31] = some ([0x1004], 0x0FFFFFFC) := by decide
theorem test_b_backwards : regsAfter (step (machine 0x57FFFFFE [])) [] = some ([], 0xFF8) := by decide
theorem test_b_most_negative : regsAfter (step (machine 0x56000000 [])) [] = some ([], 0xF8001000) := by decide
theorem test_beq_taken : regsAfter (step (machine 0x5D07FFFE [(8, 5), (7, 5)])) [] = some ([], 0xFF8) := by decide
theorem test_beq_not_taken : regsAfter (step (machine 0x5D07FFFE [(8, 5), (7, 6)])) [] = some ([], 0x1004) := by decide
theorem test_bne_taken : regsAfter (step (machine 0x61070004 [(8, 1), (7, 2)])) [] = some ([], 0x1010) := by decide
theorem test_bne_not_taken : regsAfter (step (machine 0x61070004 [(8, 2), (7, 2)])) [] = some ([], 0x1004) := by decide
theorem test_bge_taken : regsAfter (step (machine 0x65070004 [(8, 5), (7, 5)])) [] = some ([], 0x1010) := by decide
theorem test_bge_not_taken : regsAfter (step (machine 0x65070004 [(8, 0xFFFFFFFF), (7, 1)])) [] = some ([], 0x1004) := by decide
theorem test_bgeu_taken : regsAfter (step (machine 0x89070004 [(8, 0xFFFFFFFF), (7, 1)])) [] = some ([], 0x1010) := by decide
theorem test_bgeu_not_taken : regsAfter (step (machine 0x89070004 [(8, 1), (7, 0xFFFFFFFF)])) [] = some ([], 0x1004) := by decide
theorem test_bgt_taken : regsAfter (step (machine 0x69070004 [(8, 1), (7, 0xFFFFFFFF)])) [] = some ([], 0x1010) := by decide
theorem test_bgt_not_taken : regsAfter (step (machine 0x69070004 [(8, 5), (7, 5)])) [] = some ([], 0x1004) := by decide
theorem test_bgtu_taken : regsAfter (step (machine 0x8D070004 [(8, 0xFFFFFFFF), (7, 1)])) [] = some ([], 0x1010) := by decide
theorem test_bgtu_not_taken : regsAfter (step (machine 0x8D070004 [(8, 1), (7, 0xFFFFFFFF)])) [] = some ([], 0x1004) := by decide
theorem test_ble_taken : regsAfter (step (machine 0x6D070004 [(8, 0x80000000), (7, 0x7FFFFFFF)])) [] = some ([], 0x1010) := by decide
theorem test_ble_not_taken : regsAfter (step (machine 0x6D070004 [(8, 1), (7, 0xFFFFFFFF)])) [] = some ([], 0x1004) := by decide
theorem test_bleu_taken : regsAfter (step (machine 0x91070004 [(8, 5), (7, 5)])) [] = some ([], 0x1010) := by decide
theorem test_bleu_not_taken : regsAfter (step (machine 0x91070004 [(8, 0x80000000), (7, 0x7FFFFFFF)])) [] = some ([], 0x1004) := by decide
theorem test_blt_taken : regsAfter (step (machine 0x71070004 [(8, 0xFFFFFFFF), (7, 1)])) [] = some ([], 0x1010) := by decide
theorem test_blt_not_taken : regsAfter (step (machine 0x71070004 [(8, 5), (7, 5)])) [] = some ([], 0x1004) := by decide
theorem test_bltu_taken : regsAfter (step (machine 0x95070004 [(8, 1), (7, 2)])) [] = some ([], 0x1010) := by decide
theorem test_bltu_not_taken : regsAfter (step (machine 0x95070004 [(8, 0xFFFFFFFF), (7, 1)])) [] = some ([], 0x1004) := by decide
theorem test_eret_without_exception : faultOf (step (machine 0xF8000000 [])) = some (.eretWithoutException) := by decide
theorem test_eret_resumes : regsAfter (exec .eret (enterException 0x1234 0x3000 (machine 0 []))) [] = some ([], 0x1234) := by decide
theorem test_halt_stays : regsAfter (step (machine 0xFC000000 [])) [] = some ([], 0x1000) ∧
    haltAfter (step (machine 0xFC000000 [])) = some true := by decide

/-! ### Faults of the fetch and of the decode (95_test_vectors.md 2.7); the other value of each parameter -/

theorem test_reserved_bits : faultOf (step (machine 0x00611001 [(1, 5), (2, 7)])) = some (.reservedBits 0x00611001) ∧
    faultOf (step (machine 0xFFFFFFFF [])) = some (.reservedBits 0xFFFFFFFF) := by decide
theorem test_unassigned_opcode : faultOf (step (machine 0x78000000 [])) = some (.illegalInstruction 0x78000000) ∧
    faultOf (step (machine 0xF4000000 [])) = some (.illegalInstruction 0xF4000000) := by decide
theorem test_reserved_ignored :
    regsAfter (step { machine 0x00611001 [(1, 5), (2, 7)] with platform := { testPlatform with reservedNonzero := .ignore } }) [3] =
      some ([12], 0x1004) := by decide
theorem test_fetch_faults :
    faultOf (step ((machine 0 []).jump 0x1002)) = some (.misalignedFetch 0x1002) ∧
    faultOf (step ((machine 0 []).jump 0x3000)) = some (.fetchFault 0x3000) ∧
    faultOf (step ((machine 0 []).jump 0x2000)) = some (.fetchFault 0x2000) := by decide
/-- R56: under `coherent` the same store goes through and a fetch reads data: 0x1234FF80 has opcode 000100, DIVU, with reserved
bits set. -/
theorem test_coherent :
    bytesAfter (step { machine 0x48220000 [(1, 0x1000), (2, 0xDD)] with
      platform := { testPlatform with smcPolicy := .coherent } }) [0x1000] = some ([some 0xDD], 0x1004) ∧
    faultOf (step ({ machine 0 [] with platform := { testPlatform with smcPolicy := .coherent } }.jump 0x2000)) =
      some (.reservedBits 0x1234FF80) := by decide
theorem test_store_to_text : refusalOf (step (machine 0x48220000 [(1, 0x1000), (2, 0xDD)])) = some (.storeToProgramText 0x1000) := by
  decide
theorem test_step_from_reset :
    regsAfter (step (State.reset.withFetchWord 32 0x81000005)) [8] = some ([5], 0x1004) ∧
    faultOf (step State.reset) = some (.fetchFault 0x1000) := by decide

/-! ### Well-formed and ill-formed lines (30_encoding.md R90, D24): each check refuses an ill-formed term -/

theorem test_wf_line : Line.wf ⟨.addi, [.reg 8, .reg 7, .num 65535]⟩ = true ∧
    (assemble ⟨.addi, [.reg 8, .reg 7, .num 5]⟩).map (List.map encode) = some [0x81070005] := by decide
theorem test_wf_register : Line.wf ⟨.add, [.reg 32, .reg 7, .reg 6]⟩ = false := by decide
theorem test_wf_const16 : Line.wf ⟨.addi, [.reg 8, .reg 7, .num 65536]⟩ = false ∧
    Line.wf ⟨.subi, [.reg 8, .reg 7, .num (-1)]⟩ = false := by decide
theorem test_wf_off16 : Line.wf ⟨.lw, [.reg 8, .mem 32768 7]⟩ = false ∧
    Line.wf ⟨.beq, [.reg 8, .reg 7, .num (-32769)]⟩ = false := by decide
theorem test_wf_const26 : Line.wf ⟨.call, [.num 67108864]⟩ = false := by decide
theorem test_wf_off26 : Line.wf ⟨.b, [.num 33554432]⟩ = false := by decide
theorem test_wf_const32 : Line.wf ⟨.li, [.reg 5, .num 4294967296]⟩ = false := by decide
theorem test_wf_shape : Line.wf ⟨.sw, [.reg 2, .reg 1, .num 4]⟩ = false ∧ assemble ⟨.ret, [.reg 31]⟩ = none := by decide
/-- 30_encoding.md R92: `sw $r29, -4($r5)`; section 1 of 95_test_vectors.md: `li $r5, 0xDEADBEEF`, `bnez $r8, -3`. -/
theorem test_assemble : (assemble ⟨.sw, [.reg 5, .mem (-4) 29]⟩).map (List.map encode) = some [0x53A5FFFC] ∧
    (assemble ⟨.li, [.reg 5, .num 0xDEADBEEF]⟩).map (List.map encode) = some [0x18A0DEAD, 0xA8A5BEEF] ∧
    (assemble ⟨.bnez, [.reg 8, .num (-3)]⟩).map (List.map encode) = some [0x6100FFFD] := by decide
/-- 95_test_vectors.md, program P3: `call 0x405` reaches 0x1014, `b -4` at 0x1024 reaches 0x1014. -/
theorem test_labels : labelConst26 0x1014 = some 0x405 ∧ labelOff26 0x1024 0x1014 = some 0x3FFFFFC ∧
    labelOff16 0x101C 0x1010 = some 0xFFFD ∧ labelOff16 0x1000 0x1002 = none := by decide
/-- 95_test_vectors.md 2.3: `li $r5, 0xDEADBEEF`. -/
theorem test_li : regsAfter (execPseudo (.li 5 0xDEADBEEF) (machine 0 [])) [5] = some ([0xDEADBEEF], 0x1008) := by decide

/-! ### Text (30_encoding.md R90; the manual's examples in section 1 of 95_test_vectors.md) -/

/-- `.define TWO, 2` then `addi $r8, $r7, TWO`, with a comment and a blank line. -/
theorem test_text_define :
    (assembleText [] [".define TWO, 2".toList, "  # nothing".toList, "addi $r8, $r7, TWO  # $r8 <- $r7 + 2".toList]).map
      (List.map encode) = some [0x81070002] := by decide
/-- 30_encoding.md R92: `SW R5, -4(R29)`; program P3: `b -4`, `ret`. -/
theorem test_text_spellings :
    (assembleText [] ["SW R5, -4(R29)".toList, "b -4".toList, "ret".toList]).map (List.map encode) =
      some [0x53A5FFFC, 0x57FFFFFC, 0x5BE00000] := by decide
/-- A label, a register 32, a constant out of range and a name without a value are refused. -/
theorem test_text_refused :
    assembleText [] ["loop: b -4".toList] = none ∧ assembleText [] ["add $r32, $r1, $r2".toList] = none ∧
    assembleText [] ["addi $r1, $r2, 70000".toList] = none ∧ assembleText [] ["addi $r8, $r7, TWO".toList] = none := by decide
/-- 95_test_vectors.md part 3: the word 0xA820000A of P1 is the bytes 0A 00 20 A8. -/
theorem test_image : imageBytes [.ori 1 0 10] = [0x0A, 0x00, 0x20, 0xA8] := by decide

/-! ### Witnesses: hypotheses that are met together -/

/-- An outcome whose next state has a property. -/
theorem next_of_regsAfter {r : Result} {rs : List Reg} {v : List Word × Word} (h : regsAfter r rs = some v) :
    ∃ t, r = .next t := by
  cases r with
  | next t => exact ⟨t, rfl⟩
  | fault f => cases h
  | refused f => cases h

theorem fault_of_faultOf {r : Result} {f : Fault} (h : faultOf r = some f) : r = .fault f := by
  cases r <;> cases h; rfl

theorem refused_of_refusalOf {r : Result} {f : Refusal} (h : refusalOf r = some f) : r = .refused f := by
  cases r <;> cases h; rfl

theorem fetch_of_fetched {s : State} {w : Word} (h : fetched s = some w) : fetch s = .ok w := by
  unfold fetched at h
  split at h <;> cases h
  assumption

/-- SW of R2 at 4(R1), a store, about to execute. -/
def storing : State := machine 0x50220004 [(1, 0x2000), (2, 0xAABBCCDD)]

/-- ADD R3, R1, R2 about to execute. -/
def adding : State := machine 0x00611000 [(1, 5), (2, 7)]

theorem storing_next : ∃ t, step storing = .next t := next_of_regsAfter (rs := []) (v := ([], 0x1004)) (by decide)

theorem exec_storing_next : ∃ t, exec (.sw 1 2 4) storing = .next t :=
  next_of_regsAfter (rs := []) (v := ([], 0x1004)) (by decide)

theorem witness_DecodedWordIsItsEncoding : decode .fault 0x81070005 = .ok (.addi 8 7 5) := rfl

theorem witness_ReservedBitsFaultOrAreIgnored :
    (machine 0x00611400 []).halted = false ∧ fetch (machine 0x00611400 []) = .ok 0x00611400 ∧
    (machine 0x00611400 []).platform.reservedNonzero = .fault ∧
    (0x00611400 : Word) &&& reservedMask (opcodeField 0x00611400) ≠ 0 :=
  ⟨rfl, fetch_of_fetched (by decide), rfl, by decide⟩

theorem witness_UnassignedOpcodesAreIllegal :
    (machine 0x98000000 []).halted = false ∧ fetch (machine 0x98000000 []) = .ok 0x98000000 ∧
    opcodeField 0x98000000 ∈ unassignedOpcodes :=
  ⟨rfl, fetch_of_fetched (by decide), by decide⟩

theorem witness_StepRunsDecodedInstruction :
    adding.halted = false ∧ adding.pc.toNat % 4 = 0 ∧ adding.byteAt adding.pc.toNat = some 0x00 ∧
    adding.byteAt (adding.pc.toNat + 1) = some 0x10 ∧ adding.byteAt (adding.pc.toNat + 2) = some 0x61 ∧
    adding.byteAt (adding.pc.toNat + 3) = some 0x00 ∧
    (adding.platform.smcPolicy = .refuse → ∀ k, k < 4 → isText adding.platform (adding.pc.toNat + k) = true) ∧
    decode adding.platform.reservedNonzero ((0x00 : Byte) ++ (0x61 : Byte) ++ (0x10 : Byte) ++ (0x00 : Byte)) =
      .ok (.add 3 1 2) :=
  ⟨rfl, by decide, by decide, by decide, by decide, by decide, fun _ => by decide, rfl⟩

theorem witness_FetchFaults_misaligned : (adding.jump 0x1003).halted = false ∧ (adding.jump 0x1003).pc.toNat % 4 ≠ 0 := by decide

/-- The last byte of the four is the missing one: data at 0x2004 to 0x2006 only. -/
theorem witness_FetchFaults_missing :
    let s : State := State.boot ⟨[⟨0x2004, 3, .text⟩], .fault, .refuse⟩ 0x2004 [(0x2004, 0), (0x2005, 0), (0x2006, 0)]
    s.halted = false ∧ s.pc.toNat % 4 = 0 ∧ 3 < 4 ∧ s.byteAt (s.pc.toNat + 3) = none ∧ s.byteAt (s.pc.toNat + 2) = some 0 := by
  decide

/-- A word that lies whole in data memory. -/
theorem witness_FetchFaults_notText :
    (adding.jump 0x2000).halted = false ∧ (adding.jump 0x2000).pc.toNat % 4 = 0 ∧
    (adding.jump 0x2000).platform.smcPolicy = .refuse ∧ 0 < 4 ∧
    isText (adding.jump 0x2000).platform ((adding.jump 0x2000).pc.toNat + 0) = false ∧
    (adding.jump 0x2000).wordAt 0x2000 = some 0x1234FF80 := by decide

theorem witness_HaltedCpuTakesNoStep : adding.assertHalt.halted = true := rfl

theorem witness_DivuWritesQuotientAndRemainder :
    (machine 0 [(6, 0)]).readReg 6 = 0 ∧ (machine 0 [(6, 1)]).readReg 6 ≠ 0 := by decide

theorem witness_DivWritesTruncatedQuotientAndRemainder :
    (machine 0 [(6, 0)]).readReg 6 = 0 ∧
    (machine 0 [(7, 0x80000000), (6, 0xFFFFFFFF)]).readReg 6 ≠ 0 ∧
    ((machine 0 [(7, 0x80000000), (6, 0xFFFFFFFF)]).readReg 7 = 0x80000000 ∧
      (machine 0 [(7, 0x80000000), (6, 0xFFFFFFFF)]).readReg 6 = 0xFFFFFFFF) ∧
    ¬ ((machine 0 [(7, 0x80000001), (6, 0xFFFFFFFF)]).readReg 7 = 0x80000000 ∧
      (machine 0 [(7, 0x80000001), (6, 0xFFFFFFFF)]).readReg 6 = 0xFFFFFFFF) := by decide

/-- The byte at 0x2008 is in `MEM_MAP` and unwritten, the one at 0x2009 is outside, the one at 0x2007 is the last written. -/
theorem witness_ByteLoads :
    (machine 0 [(1, 0x2000)]).byteAt (((machine 0 [(1, 0x2000)]).readReg 1 + (8 : Half).signExtend 32).toNat + 0) = none ∧
    isMapped testPlatform 0x2008 = true ∧
    (machine 0 [(1, 0x2000)]).byteAt (((machine 0 [(1, 0x2000)]).readReg 1 + (9 : Half).signExtend 32).toNat + 0) = none ∧
    (∀ k, k < 1 → (machine 0 [(1, 0x2008)]).byteAt (((machine 0 [(1, 0x2008)]).readReg 1 + (0xFFFF : Half).signExtend 32).toNat + k) =
      some 0x80) := by decide

theorem witness_HalfwordLoads :
    ((machine 0 [(1, 0x2000)]).readReg 1 + (7 : Half).signExtend 32).toNat % 2 ≠ 0 ∧
    (((machine 0 [(1, 0x2000)]).readReg 1 + (8 : Half).signExtend 32).toNat % 2 = 0 ∧
      (machine 0 [(1, 0x2000)]).byteAt (((machine 0 [(1, 0x2000)]).readReg 1 + (8 : Half).signExtend 32).toNat + 1) = none) ∧
    (((machine 0 [(1, 0x2000)]).readReg 1 + (6 : Half).signExtend 32).toNat % 2 = 0 ∧
      ∀ k, k < 2 → (machine 0 [(1, 0x2000)]).byteAt (((machine 0 [(1, 0x2000)]).readReg 1 + (6 : Half).signExtend 32).toNat + k) =
        some ((fun k => if k = 0 then 0x00 else 0x80 : Nat → Byte) k)) := by decide

theorem witness_WordLoad :
    ((machine 0 [(1, 0x2000)]).readReg 1 + (2 : Half).signExtend 32).toNat % 4 ≠ 0 ∧
    (((machine 0 [(1, 0x2000)]).readReg 1 + (8 : Half).signExtend 32).toNat % 4 = 0 ∧
      (machine 0 [(1, 0x2000)]).byteAt (((machine 0 [(1, 0x2000)]).readReg 1 + (8 : Half).signExtend 32).toNat + 3) = none) ∧
    (((machine 0 [(1, 0x2000)]).readReg 1 + (4 : Half).signExtend 32).toNat % 4 = 0 ∧
      ∀ k, k < 4 → (machine 0 [(1, 0x2000)]).byteAt (((machine 0 [(1, 0x2000)]).readReg 1 + (4 : Half).signExtend 32).toNat + k) =
        some ((fun k => if k = 0 then 0x7F else if k = 3 then 0x80 else 0 : Nat → Byte) k)) := by decide

/-- 0x2009 is the first address outside, 0x1003 the last of program text, 0x2008 the last of data. -/
theorem witness_ByteStore :
    isMapped testPlatform ((effectiveAddress 1 9 (machine 0 [(1, 0x2000)])).toNat + 0) = false ∧
    ((∀ k, k < 1 → isMapped testPlatform ((effectiveAddress 1 3 (machine 0 [(1, 0x1000)])).toNat + k) = true) ∧
      testPlatform.smcPolicy = .refuse ∧ isText testPlatform ((effectiveAddress 1 3 (machine 0 [(1, 0x1000)])).toNat + 0) = true) ∧
    ((∀ k, k < 1 → isMapped testPlatform ((effectiveAddress 1 8 (machine 0 [(1, 0x2000)])).toNat + k) = true) ∧
      ∀ k, k < 1 → isText testPlatform ((effectiveAddress 1 8 (machine 0 [(1, 0x2000)])).toNat + k) = false) := by decide

/-- The access at 0x2008 has its second byte outside. -/
theorem witness_HalfwordStore :
    (effectiveAddress 1 3 (machine 0 [(1, 0x2000)])).toNat % 2 ≠ 0 ∧
    ((effectiveAddress 1 8 (machine 0 [(1, 0x2000)])).toNat % 2 = 0 ∧
      isMapped testPlatform ((effectiveAddress 1 8 (machine 0 [(1, 0x2000)])).toNat + 1) = false) ∧
    ((effectiveAddress 1 2 (machine 0 [(1, 0x1000)])).toNat % 2 = 0 ∧
      (∀ k, k < 2 → isMapped testPlatform ((effectiveAddress 1 2 (machine 0 [(1, 0x1000)])).toNat + k) = true) ∧
      isText testPlatform ((effectiveAddress 1 2 (machine 0 [(1, 0x1000)])).toNat + 1) = true) ∧
    ((effectiveAddress 1 6 (machine 0 [(1, 0x2000)])).toNat % 2 = 0 ∧
      (∀ k, k < 2 → isMapped testPlatform ((effectiveAddress 1 6 (machine 0 [(1, 0x2000)])).toNat + k) = true) ∧
      ∀ k, k < 2 → isText testPlatform ((effectiveAddress 1 6 (machine 0 [(1, 0x2000)])).toNat + k) = false) := by decide

theorem witness_WordStore :
    (effectiveAddress 1 6 storing).toNat % 4 ≠ 0 ∧
    ((effectiveAddress 1 8 storing).toNat % 4 = 0 ∧ isMapped testPlatform ((effectiveAddress 1 8 storing).toNat + 3) = false) ∧
    ((effectiveAddress 1 0 (machine 0 [(1, 0x1000)])).toNat % 4 = 0 ∧
      (∀ k, k < 4 → isMapped testPlatform ((effectiveAddress 1 0 (machine 0 [(1, 0x1000)])).toNat + k) = true) ∧
      isText testPlatform ((effectiveAddress 1 0 (machine 0 [(1, 0x1000)])).toNat + 3) = true) ∧
    ((effectiveAddress 1 4 storing).toNat % 4 = 0 ∧
      (∀ k, k < 4 → isMapped testPlatform ((effectiveAddress 1 4 storing).toNat + k) = true) ∧
      ∀ k, k < 4 → isText testPlatform ((effectiveAddress 1 4 storing).toNat + k) = false) := by decide

theorem witness_JrJumpsToRegister :
    ((machine 0 [(5, 0x2003)]).halted = false ∧ ((machine 0 [(5, 0x2003)]).readReg 5).toNat % 4 ≠ 0) ∧
    ((machine 0 [(5, 0x1004)]).halted = false ∧ ((machine 0 [(5, 0x1004)]).readReg 5).toNat % 4 = 0 ∧
      isMapped (machine 0 [(5, 0x1004)]).platform ((machine 0 [(5, 0x1004)]).readReg 5).toNat = false) := by decide

/-- Both sides of both conditions; the other branches: `test_bne_taken` to `test_bltu_not_taken`. -/
theorem witness_EqualityBranches :
    (machine 0 [(8, 5), (7, 5)]).readReg 8 = (machine 0 [(8, 5), (7, 5)]).readReg 7 ∧
    (machine 0 [(8, 5), (7, 6)]).readReg 8 ≠ (machine 0 [(8, 5), (7, 6)]).readReg 7 := by decide

/-- R8 is -1, 5, 5 and R7 is 1, 5, 1: less, equal and greater as signed numbers. -/
theorem witness_SignedBranches :
    ((machine 0 [(8, 0xFFFFFFFF), (7, 1)]).readReg 8).toInt < ((machine 0 [(8, 0xFFFFFFFF), (7, 1)]).readReg 7).toInt ∧
    ((machine 0 [(8, 5), (7, 5)]).readReg 8).toInt = ((machine 0 [(8, 5), (7, 5)]).readReg 7).toInt ∧
    ((machine 0 [(8, 5), (7, 1)]).readReg 8).toInt > ((machine 0 [(8, 5), (7, 1)]).readReg 7).toInt := by decide

theorem witness_UnsignedBranches :
    ((machine 0 [(8, 0xFFFFFFFF), (7, 1)]).readReg 8).toNat > ((machine 0 [(8, 0xFFFFFFFF), (7, 1)]).readReg 7).toNat ∧
    ((machine 0 [(8, 5), (7, 5)]).readReg 8).toNat = ((machine 0 [(8, 5), (7, 5)]).readReg 7).toNat ∧
    ((machine 0 [(8, 1), (7, 5)]).readReg 8).toNat < ((machine 0 [(8, 1), (7, 5)]).readReg 7).toNat := by decide

theorem witness_EretResumesSavedAddress :
    (enterException 0x1234 0x3000 adding).epc = some 0x1234 ∧ adding.epc = none := by decide

/-- A handler that has written a register and moved on. -/
theorem witness_ExceptionEntryAndReturn :
    (((enterException 0x1234 0x3000 adding).writeReg 5 7).advance).epc = (enterException 0x1234 0x3000 adding).epc := rfl

theorem witness_LiLoadsWholeConstant : (5 : Reg) ≠ 0 ∧ (6 : Reg) ≠ 5 := by decide

theorem witness_TransferPseudosAndNop :
    (machine 0 [(8, 0)]).readReg 8 = 0 ∧ (machine 0 [(8, 1)]).readReg 8 ≠ 0 := by decide

/-- The ends of the ranges. -/
theorem witness_OperandFieldsHoldTheirValues :
    asmConst16 65535 = some 0xFFFF ∧ asmOff16 (-32768) = some 0x8000 ∧ asmConst26 67108863 = some 0x3FFFFFF ∧
    asmOff26 (-33554432) = some 0x2000000 ∧ asmConst32 4294967295 = some 0xFFFFFFFF := by decide

/-- Forwards and backwards, and the farthest target of CALL. -/
theorem witness_LabelOperandsReachTheirTargets :
    labelOff16 (0x101C : Word).toNat (0x1010 : Word).toNat = some 0xFFFD ∧
    labelOff26 (0x1000 : Word).toNat (0x08000FFC : Word).toNat = some 0x1FFFFFF ∧
    labelConst26 (0x0FFFFFFC : Word).toNat = some 0x3FFFFFF := by decide

theorem witness_OnlyDestinationRegistersChange : (∃ t, exec (.sw 1 2 4) storing = .next t) ∧ (1 : Reg) ∉ destinations (.sw 1 2 4) :=
  ⟨exec_storing_next, by decide⟩

/-- The byte after the stored word. -/
theorem witness_OnlyStoredBytesChange :
    (∃ t, exec (.sw 1 2 4) storing = .next t) ∧
    (∀ ea n, storeRange (.sw 1 2 4) storing = some (ea, n) → 0x2008 < ea.toNat ∨ ea.toNat + n ≤ 0x2008) := by
  refine ⟨exec_storing_next, fun ea n h => ?_⟩
  cases h
  decide

theorem witness_OnlyHaltTouchesSystemState : ∃ t, exec .halt adding = .next t := ⟨_, rfl⟩

/-- Each fault of the list, and the refusal. -/
theorem witness_StopsAreTheListedOnes :
    exec (.divu 3 1 0) adding = .fault .divideByZero ∧ exec .eret adding = .fault .eretWithoutException ∧
    exec (.lw 3 1 2) storing = .fault (.misalignedData 0x2002) ∧ exec (.lw 3 1 8) storing = .fault (.accessFault 0x2008) ∧
    exec (.sw 0 2 0x1000) storing = .refused (.storeToProgramText 0x1000) :=
  ⟨fault_of_faultOf (by decide), rfl, fault_of_faultOf (by decide), fault_of_faultOf (by decide),
    refused_of_refusalOf (by decide)⟩

theorem witness_OtherInstructionsAlwaysComplete : cannotStop (.mul 31 1 2) = true := rfl

theorem witness_PcStaysAligned :
    (∃ t, exec (.b 0x3FFFFFE) adding = .next t) ∧ copiesIntoPc (.b 0x3FFFFFE) = false ∧ adding.pc.toNat % 4 = 0 :=
  ⟨⟨_, rfl⟩, rfl, by decide⟩

theorem witness_StoredWordReadsBackAtEveryWidth : (∃ t, exec (.sw 1 2 4) storing = .next t) ∧ 3 < 4 :=
  ⟨exec_storing_next, by decide⟩

theorem storing_inv : Inv storing := by
  refine ⟨by decide, by decide, by decide⟩

theorem witness_StepKeepsInvariant : Inv storing ∧ ∃ t, step storing = .next t := ⟨storing_inv, storing_next⟩

theorem witness_ResetMeetsInvariant :
    Memory.wf dataImage = true ∧ List.all dataImage (fun c => isMapped testPlatform c.1) = true := by decide

theorem witness_StepKeepsProgramText :
    (∃ t, step storing = .next t) ∧ storing.platform.smcPolicy = .refuse ∧ isText storing.platform 0x1003 = true :=
  ⟨storing_next, rfl, by decide⟩

/-- B 0 in a state of its own: the run stays at the branch, and the next fetch reads it. -/
theorem witness_RunFetchesTheLoadedProgram :
    ∃ t, Host.Core.run Sys2Proof.core 2 (machine 0x54000000 []) = .next t ∧
      (machine 0x54000000 []).platform.smcPolicy = .refuse ∧ fetch t = .ok 0x54000000 :=
  ⟨machine 0x54000000 [], rfl, rfl, rfl⟩

theorem witness_RunEndsOnlyByHalt : (machine 0xFC000000 []).halted = false ∧
    ∃ t, runFor 3 (machine 0xFC000000 []) = .halted t := ⟨rfl, _, rfl⟩

end Sys2Proof.Tests
end

/-! SUPPORT. What a step keeps of the state and what it runs: the statements of 10_state.md. -/

namespace Sys2Proof.Machine

/-! ### The invariant -/

theorem memInMap_iff {s : State} : memInMap s = true ↔ ∀ c ∈ s.mem, isMapped s.platform c.1 = true := by
  simp [memInMap]

/-- The invariant speaks of memory, of the address map and of the place of R0 alone. -/
theorem Inv.congr {s t : State} (hi : Inv s) (hm : t.mem = s.mem) (hp : t.platform = s.platform)
    (h0 : t.regs[0] = s.regs[0]) : Inv t := by
  obtain ⟨hwf, hmap, hzero⟩ := hi
  exact ⟨hm ▸ hwf, by rw [memInMap, hm, hp]; exact hmap, h0.trans hzero⟩

/-- Bytes written at addresses of `MEM_MAP` leave memory inside `MEM_MAP`. -/
theorem writeBytes_isMapped {p : Platform} {m : Memory} {a : Nat} {vs : List Byte}
    (hm : ∀ c ∈ m, isMapped p c.1 = true) (ha : allMapped p a vs.length = true) :
    ∀ c ∈ m.writeBytes a vs, isMapped p c.1 = true := by
  intro c hc
  rcases Memory.mem_writeBytes vs hc with hold | ⟨hlo, hhi⟩
  · exact hm c hold
  · have hnew := allMapped_iff.mp ha (c.1 - a) (by omega)
    rwa [Nat.add_sub_cancel' hlo] at hnew

/-- A store keeps the invariant: alignment keeps its bytes below 2^32, and presence keeps them inside `MEM_MAP`. -/
theorem Inv.store {s : State} {ea : Word} {bytes : List Byte} (hi : Inv s)
    (hn : bytes.length = 1 ∨ bytes.length = 2 ∨ bytes.length = 4) (ha : alignedTo bytes.length ea = true)
    (hm : allMapped s.platform ea.toNat bytes.length = true) :
    Inv { s with mem := s.mem.writeBytes ea.toNat bytes }.advance := by
  obtain ⟨hwf, hmap, hzero⟩ := hi
  exact ⟨Memory.writeBytes_wf bytes hwf (alignedTo_fits hn ha),
    memInMap_iff.mpr (writeBytes_isMapped (memInMap_iff.mp hmap) hm), hzero⟩

/-- Every completing instruction keeps the invariant. -/
theorem Inv.effect {i : Instr} {s t : State} (hi : Inv s) (h : Effect i s t) : Inv t := by
  cases h with
  | reg rd v _ _ _ ht => subst ht; exact hi.congr (by simp) (by simp) (by simp [writeReg_regs_zero])
  | pair rd v w _ _ _ ht => subst ht; exact hi.congr (by simp) (by simp) (by simp [writePair_regs_zero])
  | store ea bytes _ _ _ hn ha hm _ ht => subst ht; exact hi.store hn ha hm
  | transfer a _ _ _ _ ht => subst ht; exact hi.congr rfl rfl rfl
  | call c _ ht => subst ht; exact hi.congr (by simp) (by simp) (by simp [writeReg_regs_zero])
  | halt _ ht => subst ht; exact hi.congr rfl rfl rfl

/-- Settles O54: the step executed an instruction, and each of the six ways to complete keeps the invariant. -/
theorem stepKeepsInvariant : Obligations.StepKeepsInvariant := by
  intro s t hi h
  obtain ⟨_, _, _, _, _, hexec⟩ := step_next h
  exact hi.effect (exec_effect hexec)

/-- A reset meets the invariant exactly where its image does, as the register file has zero in R0's place. -/
theorem inv_boot_iff {p : Platform} {vector : Word} {image : Memory} :
    Inv (State.boot p vector image) ↔ image.wf = true ∧ image.all (fun c => isMapped p c.1) = true := by
  have hzero : resetRegs[0] = 0 := rfl
  simp [Inv, memInMap, hzero]

/-- Settles O55: the empty image of `State.reset` is canonical and has no byte outside `MEM_MAP`. -/
theorem resetMeetsInvariant : Obligations.ResetMeetsInvariant :=
  ⟨inv_boot_iff.mpr ⟨rfl, rfl⟩, fun _ _ _ hwf hmap => inv_boot_iff.mpr ⟨hwf, hmap⟩⟩

/-! ### What an instruction leaves unchanged -/

/-- Outside the destinations of a two-result instruction a register is neither `rd` nor `rd + 1`. -/
theorem not_mem_pair {rd r : Reg} (h : r ∉ if h : rd.val + 1 < 32 then [rd, ⟨rd.val + 1, h⟩] else [rd]) :
    r ≠ rd ∧ r.val ≠ rd.val + 1 := by
  split at h
  · simp only [List.mem_cons, List.not_mem_nil, or_false, not_or] at h
    exact ⟨h.1, fun e => h.2 (Fin.ext e)⟩
  · exact ⟨by simpa using h, by omega⟩

/-- Settles O47: the six ways to complete write no register but the destinations. -/
theorem onlyDestinationRegistersChange : Obligations.OnlyDestinationRegistersChange := by
  intro i s t r h hr
  cases exec_effect h with
  | reg rd v hd _ _ ht =>
    subst ht
    rw [readReg_advance, readReg_writeReg_other _ _ (by simpa [hd] using hr)]
  | pair rd v w hd _ _ ht =>
    subst ht
    obtain ⟨hfirst, hsecond⟩ := not_mem_pair (hd ▸ hr)
    rw [readReg_advance, readReg_writePair_other _ _ _ hfirst hsecond]
  | store ea bytes _ _ _ _ _ _ _ ht => subst ht; exact readReg_congr rfl r
  | transfer a _ _ _ _ ht => subst ht; exact readReg_jump s a r
  | call c hi ht =>
    subst hi ht
    rw [readReg_jump, readReg_writeReg_other _ _ (by simpa [destinations] using hr)]
  | halt _ ht => subst ht; exact readReg_assertHalt s r

/-- Settles O49: HALT alone is the way to complete that sets the halt line, and none writes `epc` or the parameters. -/
theorem onlyHaltTouchesSystemState : Obligations.OnlyHaltTouchesSystemState := by
  intro i s t h
  cases exec_effect h with
  | reg rd v _ _ hh ht => subst ht; simp [hh]
  | pair rd v w _ _ hh ht => subst ht; simp [hh]
  | store ea bytes _ _ hh _ _ _ _ ht => subst ht; simp [hh]
  | transfer a _ _ hh _ ht => subst ht; simp [hh]
  | call c hi ht => subst hi ht; simp
  | halt hi ht => subst hi ht; simp

/-! ### What a step runs -/

/-- Settles O9: `step` asks for the halt line before it fetches. -/
theorem haltedCpuTakesNoStep : Obligations.HaltedCpuTakesNoStep := by
  intro s h
  exact if_pos h

/-- A fetch from an aligned `pc` reads the word that is there, if it is program text where that is asked for. -/
theorem fetch_of_wordAt {s : State} {w : Word} (ha : alignedTo 4 s.pc = true)
    (ht : s.platform.smcPolicy = .refuse → allText s.platform s.pc.toNat 4 = true)
    (hw : s.wordAt s.pc.toNat = some w) : fetch s = .ok w := by
  rcases fetch_cases s with ⟨hna, _⟩ | ⟨_, hr, hnt, _⟩ | ⟨_, hn, _⟩ | ⟨v, _, _, hv, e⟩
  · simp [ha] at hna
  · simp [ht hr] at hnt
  · simp [hw] at hn
  · rwa [Option.some.inj (hw.symm.trans hv)]

/-- A step of a running CPU executes what it fetched and decoded. -/
theorem step_of_fetch {s : State} {w : Word} {i : Instr} (hh : s.halted = false) (hf : fetch s = .ok w)
    (hd : decode s.platform.reservedNonzero w = .ok i) : step s = exec i s := by
  simp [step, hh, hf, hd]

/-- Settles O6: the four bytes are the word the fetch reads. -/
theorem stepRunsDecodedInstruction : Obligations.StepRunsDecodedInstruction := by
  intro s i b0 b1 b2 b3 hh hpc h0 h1 h2 h3 ht hd
  have hw : s.wordAt s.pc.toNat = some (wordOfBytes b0 b1 b2 b3) :=
    wordAt_eq_some.mpr ⟨b0, b1, b2, b3, h0, h1, h2, h3, rfl⟩
  have ha : alignedTo 4 s.pc = true := decide_eq_true hpc
  exact step_of_fetch hh (fetch_of_wordAt ha (fun hr => allText_iff.mpr (ht hr)) hw) hd

/-! ### Decoding what the encoder wrote -/

/-- A word without reserved bits passes the check under either value of `RESERVED_NONZERO`. -/
theorem checkReserved_of_clear {p : ReservedPolicy} {mask w : Word} {i : Instr} (h : w &&& mask = 0) :
    checkReserved p mask w i = .ok i := by
  cases p with
  | fault => exact if_pos h
  | ignore => rfl

/-- The decoder reads each format's fields back from the word the encoder packed (30_encoding.md R92). -/
theorem decode_encode (p : ReservedPolicy) (i : Instr) : decode p (encode i) = .ok i := by
  cases i with
  | add | sub | mulu | mul | divu | div | sll | srl | and | or | nor | xor =>
    simp [decode, encode, opcodeOf, checkReserved_of_clear]
  | addi | subi | andi | ori | slli | srli | lb | lh | lw | lbu | lhu | sb | sh | sw =>
    simp [decode, encode, opcodeOf]
  | beq | bne | bge | bgt | ble | blt | bgeu | bgtu | bleu | bltu => simp [decode, encode, opcodeOf]
  | lui | jr => simp [decode, encode, opcodeOf, checkReserved_of_clear]
  | b | call => simp [decode, encode, opcodeOf]
  | eret | halt => simp [decode, encode, opcodeOf, checkReserved_of_clear]

/-! ### The placed word -/

/-- The word at four consecutive bytes of a stored word is that word (20_memory.md R41). -/
theorem wordOfBytes_bytesOfWord (w : Word) :
    wordOfBytes (w.extractLsb' 0 8) (w.extractLsb' 8 8) (w.extractLsb' 16 8) (w.extractLsb' 24 8) = w := by
  ext i hi
  simp only [wordOfBytes]
  grind

/-- Clearing the two low bits aligns an address. -/
theorem alignedTo_clearLow (a : Word) : alignedTo 4 (a &&& 0xFFFFFFFC) = true := by
  have hlow : (a &&& 0xFFFFFFFC).setWidth 2 = 0#2 := by
    rw [BitVec.setWidth_and]
    exact BitVec.and_zero
  have hmod := congrArg BitVec.toNat hlow
  rw [BitVec.toNat_setWidth] at hmod
  exact decide_eq_true hmod

/-- The four addresses are program text once they are declared. -/
theorem allText_declareText {p : Platform} {a : Nat} (ha : a + 4 ≤ 2 ^ 32) : allText (declareText p a) a 4 = true := by
  unfold declareText
  split
  · assumption
  · refine allText_iff.mpr fun k hk => ?_
    have hlt : a + k < 2 ^ 32 := by omega
    rw [isText, addressKind, if_pos hlt]
    simp [kindIn, regionHolds, hk]

/-- A placed word stands at program text of the state it is placed in. -/
theorem placeInstruction_allText (s : State) (w : Word) :
    allText (placeInstruction s w).platform (placeInstruction s w).pc.toNat 4 = true :=
  allText_declareText (alignedTo_fits (.inr (.inr rfl)) (alignedTo_clearLow s.pc))

theorem placeInstruction_byteAt (s : State) (w : Word) {k : Nat} (hk : k < 4) :
    (placeInstruction s w).byteAt ((placeInstruction s w).pc.toNat + k) = some (bytesOfWord w)[k] := by
  have hmapped := isText_isMapped (allText_iff.mp (placeInstruction_allText s w) k hk)
  have hread := Memory.read_writeBytes_in (bytesOfWord w) s.mem (a := (placeInstruction s w).pc.toNat) hk
  rw [State.byteAt, if_pos hmapped]
  exact hread

/-- A placed word is what the next step fetches. -/
theorem fetch_placeInstruction (s : State) (w : Word) : fetch (placeInstruction s w) = .ok w := by
  have hbyte := fun k (hk : k < 4) => placeInstruction_byteAt s w hk
  have hw : (placeInstruction s w).wordAt (placeInstruction s w).pc.toNat = some w :=
    wordAt_eq_some.mpr ⟨_, _, _, _, hbyte 0 (by decide), hbyte 1 (by decide), hbyte 2 (by decide), hbyte 3 (by decide),
      (wordOfBytes_bytesOfWord w).symm⟩
  exact fetch_of_wordAt (alignedTo_clearLow s.pc) (fun _ => placeInstruction_allText s w) hw

/-- All 32 bits of a word are placed. -/
theorem withFetchWord_toNat (s : State) (w : Word) : s.withFetchWord 32 w.toNat = placeInstruction s w := by
  rw [State.withFetchWord, Nat.mod_eq_of_lt w.isLt, BitVec.ofNat_toNat, BitVec.setWidth_eq]

/-- Settles O7: the placed word is fetched from a running CPU, and the decoder reads the encoded instruction back. -/
theorem placedWordRuns : Obligations.PlacedWordRuns := by
  intro s i
  rw [withFetchWord_toNat]
  exact step_of_fetch rfl (fetch_placeInstruction s (encode i)) (decode_encode _ i)

end Sys2Proof.Machine

/-! SUPPORT. Memory under a step, along a run, at the fetch and after a store: the statements of 20_memory.md. -/

namespace Sys2Proof.Machine

/-! ### The bytes an instruction leaves alone -/

/-- Settles O48: of the six ways to complete only the store writes memory, and it writes its own bytes. -/
theorem onlyStoredBytesChange : Obligations.OnlyStoredBytesChange := by
  intro i s t a h hout
  cases exec_effect h with
  | reg rd v _ _ _ ht => subst ht; simp
  | pair rd v w _ _ _ ht => subst ht; simp
  | store ea bytes _ hs _ _ _ hm _ ht =>
    subst ht
    obtain ⟨_, hframe, _⟩ := stored_storesBytes s ea bytes hm
    exact hframe a (hout ea _ hs)
  | transfer b _ _ _ _ ht => subst ht; simp
  | call c _ ht => subst ht; simp
  | halt _ ht => subst ht; simp

/-! ### Program text (R56) -/

/-- Under `SMC_POLICY` refuse a store that completes has no byte of program text in its range. -/
theorem storeRange_not_text {i : Instr} {s t : State} {ea : Word} {n k : Nat} (h : exec i s = .next t)
    (hp : s.platform.smcPolicy = .refuse) (hr : storeRange i s = some (ea, n)) (hk : k < n) :
    isText s.platform (ea.toNat + k) = false := by
  cases exec_effect h with
  | reg rd v _ hs _ _ => simp [hs] at hr
  | pair rd v w _ hs _ _ => simp [hs] at hr
  | store ea' bytes _ hs _ _ _ _ hx _ =>
    obtain ⟨rfl, rfl⟩ : ea' = ea ∧ bytes.length = n := by simpa [hs] using hr
    exact anyText_false_iff.mp (hx hp) k hk
  | transfer b _ hs _ _ _ => simp [hs] at hr
  | call c hi _ => simp [hi, storeRange] at hr
  | halt hi _ => simp [hi, storeRange] at hr

/-- Between two states of a run the parameters are the same, and under `SMC_POLICY` refuse every byte of program text reads
the same. -/
def KeepsProgram (s t : State) : Prop :=
  t.platform = s.platform ∧
  (s.platform.smcPolicy = .refuse → ∀ a, isText s.platform a = true → t.byteAt a = s.byteAt a)

theorem KeepsProgram.refl (s : State) : KeepsProgram s s := ⟨rfl, fun _ _ _ => rfl⟩

theorem KeepsProgram.trans {s t u : State} (hst : KeepsProgram s t) (htu : KeepsProgram t u) : KeepsProgram s u := by
  obtain ⟨hplat, hbytes⟩ := hst
  obtain ⟨hplat', hbytes'⟩ := htu
  refine ⟨hplat'.trans hplat, fun hp a ha => ?_⟩
  rw [hplat] at hbytes'
  exact (hbytes' hp a ha).trans (hbytes hp a ha)

/-- An address of program text lies outside the bytes of every store that completes. -/
theorem exec_keepsProgram {i : Instr} {s t : State} (h : exec i s = .next t) : KeepsProgram s t := by
  obtain ⟨_, hplat, _⟩ := onlyHaltTouchesSystemState i s t h
  refine ⟨hplat, fun hp a ha => onlyStoredBytesChange i s t a h fun ea n hr => ?_⟩
  by_contra hin
  have hnot := storeRange_not_text h hp hr (k := a - ea.toNat) (by omega)
  rw [Nat.add_sub_cancel' (by omega), ha] at hnot
  cases hnot

theorem step_keepsProgram {s t : State} (h : step s = .next t) : KeepsProgram s t := by
  obtain ⟨_, _, _, _, _, hexec⟩ := step_next h
  exact exec_keepsProgram hexec

/-- Settles O56: the marking is a parameter of the run, and the bytes of program text are kept. -/
theorem stepKeepsProgramText : Obligations.StepKeepsProgramText := by
  intro s t h hp a
  obtain ⟨hplat, hbytes⟩ := step_keepsProgram h
  exact ⟨by rw [hplat], hbytes hp a⟩

/-! ### Along a run -/

/-- A run of `n + 1` steps is a step and then a run of `n` steps. -/
theorem run_succ_next {n : Nat} {s t : State} (h : Host.Core.run Sys2Proof.core (n + 1) s = .next t) :
    ∃ u, step s = .next u ∧ Host.Core.run Sys2Proof.core n u = .next t := by
  cases hs : Sys2Proof.core.step s with
  | next u => exact ⟨u, hs, by simpa only [Host.Core.run, hs] using h⟩
  | fault f => simp [Host.Core.run, hs] at h
  | refused r => simp [Host.Core.run, hs] at h

/-- A reflexive and transitive relation that every step respects relates the first and the last state of a run. -/
theorem run_induction {R : State → State → Prop} (hrefl : ∀ s, R s s) (htrans : ∀ s t u, R s t → R t u → R s u)
    (hstep : ∀ s t, step s = .next t → R s t) {n : Nat} {s t : State}
    (h : Host.Core.run Sys2Proof.core n s = .next t) : R s t := by
  induction n generalizing s with
  | zero => cases h; exact hrefl _
  | succ n ih =>
    obtain ⟨u, hu, hrun⟩ := run_succ_next h
    exact htrans s u t (hstep s u hu) (ih hrun)

theorem run_keepsProgram {n : Nat} {s t : State} (h : Host.Core.run Sys2Proof.core n s = .next t) : KeepsProgram s t :=
  run_induction KeepsProgram.refl (fun _ _ _ => KeepsProgram.trans) (fun _ _ => step_keepsProgram) h

/-- A fetch that succeeds reads the word at `pc`, all of whose bytes are program text under `SMC_POLICY` refuse. -/
theorem fetch_ok {s : State} {w : Word} (h : fetch s = .ok w) :
    s.wordAt s.pc.toNat = some w ∧
    (s.platform.smcPolicy = .refuse → ∀ k, k < 4 → isText s.platform (s.pc.toNat + k) = true) := by
  rcases fetch_cases s with ⟨_, e⟩ | ⟨_, _, _, e⟩ | ⟨_, _, e⟩ | ⟨v, _, ht, hv, e⟩
  · cases e.symm.trans h
  · cases e.symm.trans h
  · cases e.symm.trans h
  · cases e.symm.trans h
    exact ⟨hv, fun hr => allText_iff.mp (ht hr)⟩

/-- A word depends on its four bytes alone. -/
theorem wordAt_congr {s t : State} {a : Nat} (h : ∀ k, k < 4 → t.byteAt (a + k) = s.byteAt (a + k)) :
    t.wordAt a = s.wordAt a := by
  have h0 : t.byteAt a = s.byteAt a := h 0 (by decide)
  simp only [State.wordAt, h0, h 1 (by decide), h 2 (by decide), h 3 (by decide)]

/-- Settles O57: the fetch reads program text only, which the run has kept since the start. -/
theorem runFetchesTheLoadedProgram : Obligations.RunFetchesTheLoadedProgram := by
  intro n s t hrun hp w hf
  obtain ⟨hplat, hbytes⟩ := run_keepsProgram hrun
  obtain ⟨hw, htext⟩ := fetch_ok hf
  rw [hplat] at htext
  rw [← wordAt_congr fun k hk => hbytes hp _ (htext hp k hk)]
  exact hw

/-! ### The faults of the fetch (R47, R51, R56) -/

/-- A step of a running CPU stops on the fault of its fetch. -/
theorem step_of_fetch_error {s : State} {f : Fault} (hh : s.halted = false) (hf : fetch s = .error f) :
    step s = .fault f := by
  simp [step, hh, hf]

/-- A word is missing as soon as one of its bytes is. -/
theorem wordAt_eq_none {s : State} {a k : Nat} (hk : k < 4) (hb : s.byteAt (a + k) = none) : s.wordAt a = none := by
  cases hw : s.wordAt a with
  | none => rfl
  | some w =>
    obtain ⟨b0, b1, b2, b3, h0, h1, h2, h3, _⟩ := wordAt_eq_some.mp hw
    have hsome : s.byteAt (a + k) ≠ none := by
      interval_cases k <;> simp [h0, h1, h2, h3]
    exact absurd hb hsome

theorem fetch_misaligned {s : State} (h : s.pc.toNat % 4 ≠ 0) : fetch s = .error (.misalignedFetch s.pc) :=
  if_neg (by simpa [alignedTo] using h)

/-- From an aligned `pc` whatever the fetch cannot read is a `FetchFault`. -/
theorem fetch_fetchFault {s : State} (ha : s.pc.toNat % 4 = 0) (h : ∀ w, fetch s ≠ .ok w) :
    fetch s = .error (.fetchFault s.pc) := by
  rcases fetch_cases s with ⟨hna, _⟩ | ⟨_, _, _, e⟩ | ⟨_, _, e⟩ | ⟨w, _, _, _, e⟩
  · simp [alignedTo, ha] at hna
  · exact e
  · exact e
  · exact absurd e (h w)

/-- Settles O8: a fetch that succeeds has an aligned `pc`, all four bytes, and program text where that is asked for. -/
theorem fetchFaults : Obligations.FetchFaults := by
  intro s hh
  refine ⟨fun hpc => step_of_fetch_error hh (fetch_misaligned hpc), ?missing, ?notText⟩
  case missing =>
    rintro hpc ⟨k, hk, hb⟩
    refine step_of_fetch_error hh (fetch_fetchFault hpc fun w hf => ?_)
    obtain ⟨hw, _⟩ := fetch_ok hf
    cases (wordAt_eq_none hk hb).symm.trans hw
  case notText =>
    rintro hpc hp ⟨k, hk, hb⟩
    refine step_of_fetch_error hh (fetch_fetchFault hpc fun w hf => ?_)
    obtain ⟨_, htext⟩ := fetch_ok hf
    cases hb.symm.trans (htext hp k hk)

/-! ### Alignment of pc (R47, R186) -/

/-- The sum of two multiples of 4 is one, also where it wraps. -/
theorem toNat_add_mod_four {a b : Word} (ha : a.toNat % 4 = 0) (hb : b.toNat % 4 = 0) : (a + b).toNat % 4 = 0 := by
  rw [BitVec.toNat_add]; omega

/-- A word shifted left by two is a multiple of 4: the form of every branch offset and of CALL's target (R82, R83). -/
theorem toNat_shiftLeft_two_mod_four (d : Word) : (d <<< 2).toNat % 4 = 0 := by
  rw [BitVec.toNat_shiftLeft, Nat.shiftLeft_eq]; omega

/-- Settles O52: the next instruction, the branch targets and CALL's target are multiples of 4. -/
theorem pcStaysAligned : Obligations.PcStaysAligned := by
  intro i s t h hcopy hpc
  have hnext : (s.pc + 4).toNat % 4 = 0 := toNat_add_mod_four hpc rfl
  cases exec_effect h with
  | reg rd v _ _ _ ht => subst ht; simpa using hnext
  | pair rd v w _ _ _ ht => subst ht; simpa using hnext
  | store ea bytes _ _ _ _ _ _ _ ht => subst ht; exact hnext
  | transfer a _ _ _ ha ht =>
    subst ht
    obtain ⟨d, rfl⟩ := ha hcopy
    exact toNat_add_mod_four hpc (toNat_shiftLeft_two_mod_four d)
  | call c _ ht => subst ht; exact toNat_shiftLeft_two_mod_four _
  | halt _ ht => subst ht; exact hpc

/-! ### Mixed-width views of a stored word (R58) -/

theorem memRead8_of_byteAt {s : State} {ea : Word} {b : Byte} (h : s.byteAt ea.toNat = some b) :
    memRead8 s ea = .ok b := by
  simp [memRead8, h]

theorem memRead16_of_byteAt {s : State} {ea : Word} {b0 b1 : Byte} (ha : ea.toNat % 2 = 0)
    (h0 : s.byteAt ea.toNat = some b0) (h1 : s.byteAt (ea.toNat + 1) = some b1) :
    memRead16 s ea = .ok (halfOfBytes b0 b1) := by
  simp [memRead16, alignedTo, ha, h0, h1]

theorem memRead32_of_wordAt {s : State} {ea w : Word} (ha : ea.toNat % 4 = 0) (h : s.wordAt ea.toNat = some w) :
    memRead32 s ea = .ok w := by
  simp [memRead32, alignedTo, ha, h]

/-- Byte `k` of a word, lowest address first, is its bits `8k + 7` to `8k` (R41). -/
theorem bytesOfWord_getD (w : Word) {k : Nat} (hk : k < 4) : (bytesOfWord w).getD k 0 = w.extractLsb' (8 * k) 8 := by
  interval_cases k <;> rfl

/-- Two neighbouring bytes of a word make the halfword at the lower one's place (R41). -/
theorem halfOfBytes_extractLsb' (w : Word) (n : Nat) :
    halfOfBytes (w.extractLsb' n 8) (w.extractLsb' (n + 8) 8) = w.extractLsb' n 16 := by
  ext i hi
  simp only [halfOfBytes]
  grind

/-- The addresses of an aligned word do not wrap (R42). -/
theorem toNat_add_of_aligned {ea : Word} {k : Nat} (ha : ea.toNat % 4 = 0) (hk : k < 4) :
    (ea + BitVec.ofNat 32 k).toNat = ea.toNat + k := by
  rw [BitVec.toNat_add, BitVec.toNat_ofNat]; omega

/-- A store of a word that completes is aligned, and byte `k` of the word stands `k` above its address. -/
theorem execSw_byteAt {rd rs : Reg} {off : Half} {s t : State} (h : exec (.sw rd rs off) s = .next t) :
    (effectiveAddress rd off s).toNat % 4 = 0 ∧
    ∀ k, k < 4 → t.byteAt ((effectiveAddress rd off s).toNat + k) = some ((s.readReg rs).extractLsb' (8 * k) 8) := by
  obtain ⟨ha, hm, _, rfl⟩ := memWrite_next h
  obtain ⟨hbytes, _⟩ := stored_storesBytes s _ _ hm
  exact ⟨of_decide_eq_true ha, fun k hk => (hbytes k hk).trans (congrArg some (bytesOfWord_getD _ hk))⟩

/-- Settles O53: the four bytes of the word stand at consecutive addresses that do not wrap. -/
theorem storedWordReadsBackAtEveryWidth : Obligations.StoredWordReadsBackAtEveryWidth := by
  intro rd rs off s t h
  obtain ⟨ha, hb⟩ := execSw_byteAt h
  have hhigh : (effectiveAddress rd off s + 2).toNat = (effectiveAddress rd off s).toNat + 2 :=
    toNat_add_of_aligned (k := 2) ha (by decide)
  refine ⟨fun k hk => ?byte, ?lowHalf, ?highHalf, ?word⟩
  case byte => exact memRead8_of_byteAt (by rw [toNat_add_of_aligned ha hk, hb k hk])
  case lowHalf =>
    rw [memRead16_of_byteAt (by omega) (hb 0 (by decide)) (hb 1 (by decide)), halfOfBytes_extractLsb' _ 0]
  case highHalf =>
    have hlow : t.byteAt (effectiveAddress rd off s + 2).toNat = _ := (congrArg t.byteAt hhigh).trans (hb 2 (by decide))
    have hnext : t.byteAt ((effectiveAddress rd off s + 2).toNat + 1) = _ :=
      (congrArg (fun a => t.byteAt (a + 1)) hhigh).trans (hb 3 (by decide))
    rw [memRead16_of_byteAt (by omega) hlow hnext, halfOfBytes_extractLsb' _ 16]
  case word =>
    exact memRead32_of_wordAt ha (wordAt_eq_some.mpr ⟨_, _, _, _, hb 0 (by decide), hb 1 (by decide), hb 2 (by decide),
      hb 3 (by decide), (wordOfBytes_bytesOfWord _).symm⟩)

end Sys2Proof.Machine

/-! SUPPORT. Words and lines of assembly: the statements of 30_encoding.md. -/

namespace Sys2Proof.Machine

/-! ### A word put together again from its fields (R72 to R77) -/

theorem regBits_regOfBits (b : BitVec 5) : regBits (regOfBits b) = b := rfl

theorem getElem_reservedRRR : ∀ (i : Nat) (_ : i < 32), reservedRRR[i] = decide (i < 11) := by decide

theorem getElem_reservedRI : ∀ (i : Nat) (_ : i < 32), reservedRI[i] = decide (16 ≤ i ∧ i < 21) := by decide

theorem getElem_reservedR : ∀ (i : Nat) (_ : i < 32), reservedR[i] = decide (i < 21) := by decide

theorem getElem_reservedN : ∀ (i : Nat) (_ : i < 32), reservedN[i] = decide (i < 26) := by decide

theorem packRRR_fields (w : Word) :
    packRRR (opcodeField w) (rdField w) (rsField w) (rtField w) = w &&& ~~~ reservedRRR := by
  ext i hi
  simp only [packRRR, rdField, rsField, rtField, regBits_regOfBits, opcodeField, BitVec.getElem_and, BitVec.getElem_not,
    getElem_reservedRRR]
  grind

theorem packRRI_fields (w : Word) : packRRI (opcodeField w) (rdField w) (rsField w) (imm16Field w) = w := by
  ext i hi
  simp only [packRRI, rdField, rsField, regBits_regOfBits, opcodeField, imm16Field]
  grind

theorem packRI_fields (w : Word) : packRI (opcodeField w) (rdField w) (imm16Field w) = w &&& ~~~ reservedRI := by
  ext i hi
  simp only [packRI, rdField, regBits_regOfBits, opcodeField, imm16Field, BitVec.getElem_and, BitVec.getElem_not,
    getElem_reservedRI]
  grind

theorem packR_fields (w : Word) : packR (opcodeField w) (rdField w) = w &&& ~~~ reservedR := by
  ext i hi
  simp only [packR, rdField, regBits_regOfBits, opcodeField, BitVec.getElem_and, BitVec.getElem_not, getElem_reservedR]
  grind

theorem packJ_fields (w : Word) : packJ (opcodeField w) (imm26Field w) = w := by
  ext i hi
  simp only [packJ, opcodeField, imm26Field]
  grind

theorem packN_fields (w : Word) : packN (opcodeField w) = w &&& ~~~ reservedN := by
  ext i hi
  simp only [packN, opcodeField, BitVec.getElem_and, BitVec.getElem_not, getElem_reservedN]
  grind

/-! ### What the decoder makes of a word (R84, R87, R88) -/

/-- The opcodes of format RRR (R72). -/
def opcodesRRR : List (BitVec 6) := [0, 1, 2, 3, 4, 5, 7, 8, 9, 10, 11, 12]

/-- The opcodes of format RRI (R73). -/
def opcodesRRI : List (BitVec 6) :=
  [13, 14, 15, 16, 17, 18, 19, 20, 23, 24, 25, 26, 27, 28, 32, 33, 34, 35, 36, 37, 41, 42, 43, 44]

/-- The opcodes of format J (R76). -/
def opcodesJ : List (BitVec 6) := [21, 29]

/-- The opcodes of format N (R77). -/
def opcodesN : List (BitVec 6) := [62, 63]

/-- Every opcode selects one of the six formats, with the reserved bits of that format, or is unassigned. -/
theorem opcode_format : ∀ op : BitVec 6,
    (op ∈ opcodesRRR ∧ reservedMask op = reservedRRR) ∨ (op ∈ opcodesRRI ∧ reservedMask op = 0) ∨
    (op = 6 ∧ reservedMask op = reservedRI) ∨ (op = 22 ∧ reservedMask op = reservedR) ∨
    (op ∈ opcodesJ ∧ reservedMask op = 0) ∨ (op ∈ opcodesN ∧ reservedMask op = reservedN) ∨
    (op ∈ unassignedOpcodes ∧ reservedMask op = 0) := by
  decide

section Formats

variable {w : Word} (p : ReservedPolicy)

theorem decode_opcodesRRR (h : opcodeField w ∈ opcodesRRR) :
    ∃ i, decode p w = checkReserved p reservedRRR w i ∧
      encode i = packRRR (opcodeField w) (rdField w) (rsField w) (rtField w) := by
  unfold decode
  generalize opcodeField w = op at h ⊢
  fin_cases h <;> exact ⟨_, rfl, rfl⟩

theorem decode_opcodesRRI (h : opcodeField w ∈ opcodesRRI) :
    ∃ i, decode p w = .ok i ∧ encode i = packRRI (opcodeField w) (rdField w) (rsField w) (imm16Field w) := by
  unfold decode
  generalize opcodeField w = op at h ⊢
  fin_cases h <;> exact ⟨_, rfl, rfl⟩

theorem decode_opcodesJ (h : opcodeField w ∈ opcodesJ) :
    ∃ i, decode p w = .ok i ∧ encode i = packJ (opcodeField w) (imm26Field w) := by
  unfold decode
  generalize opcodeField w = op at h ⊢
  fin_cases h <;> exact ⟨_, rfl, rfl⟩

theorem decode_opcodesN (h : opcodeField w ∈ opcodesN) :
    ∃ i, decode p w = checkReserved p reservedN w i ∧ encode i = packN (opcodeField w) := by
  unfold decode
  generalize opcodeField w = op at h ⊢
  fin_cases h <;> exact ⟨_, rfl, rfl⟩

theorem decode_opcodeLui (h : opcodeField w = 6) :
    decode p w = checkReserved p reservedRI w (.lui (rdField w) (imm16Field w)) := by
  rw [decode, h]; rfl

theorem decode_opcodeJr (h : opcodeField w = 22) : decode p w = checkReserved p reservedR w (.jr (rdField w)) := by
  rw [decode, h]; rfl

theorem decode_unassigned (h : opcodeField w ∈ unassignedOpcodes) : decode p w = .error .unassignedOpcode := by
  unfold decode
  generalize opcodeField w = op at h ⊢
  fin_cases h <;> rfl

end Formats

/-- Said once for every word: it is refused for its opcode, or it is checked for its reserved bits as the instruction whose
encoding is the word with these bits zero. -/
theorem decode_cases (p : ReservedPolicy) (w : Word) :
    (opcodeField w ∈ unassignedOpcodes ∧ reservedMask (opcodeField w) = 0 ∧ decode p w = .error .unassignedOpcode) ∨
    ∃ i, encode i = w &&& ~~~ reservedMask (opcodeField w) ∧
      decode p w = checkReserved p (reservedMask (opcodeField w)) w i := by
  have noMask : w &&& ~~~ (0 : Word) = w := BitVec.and_allOnes
  have noCheck : ∀ i, checkReserved p 0 w i = .ok i := fun _ => checkReserved_of_clear BitVec.and_zero
  rcases opcode_format (opcodeField w) with
    ⟨h, hm⟩ | ⟨h, hm⟩ | ⟨h, hm⟩ | ⟨h, hm⟩ | ⟨h, hm⟩ | ⟨h, hm⟩ | ⟨h, hm⟩
  case inr.inr.inr.inr.inr.inr => exact .inl ⟨h, hm, decode_unassigned p h⟩
  all_goals rw [hm]; right
  · obtain ⟨i, hd, he⟩ := decode_opcodesRRR p h
    exact ⟨i, he.trans (packRRR_fields w), hd⟩
  · obtain ⟨i, hd, he⟩ := decode_opcodesRRI p h
    exact ⟨i, he.trans ((packRRI_fields w).trans noMask.symm), hd.trans (noCheck i).symm⟩
  · have he : encode (.lui (rdField w) (imm16Field w)) = packRI (opcodeField w) (rdField w) (imm16Field w) := by
      rw [h]; rfl
    exact ⟨_, he.trans (packRI_fields w), decode_opcodeLui p h⟩
  · have he : encode (.jr (rdField w)) = packR (opcodeField w) (rdField w) := by rw [h]; rfl
    exact ⟨_, he.trans (packR_fields w), decode_opcodeJr p h⟩
  · obtain ⟨i, hd, he⟩ := decode_opcodesJ p h
    exact ⟨i, he.trans ((packJ_fields w).trans noMask.symm), hd.trans (noCheck i).symm⟩
  · obtain ⟨i, hd, he⟩ := decode_opcodesN p h
    exact ⟨i, he.trans (packN_fields w), hd⟩

/-- What the check of the reserved bits does. -/
theorem checkReserved_cases (p : ReservedPolicy) (mask w : Word) (i : Instr) :
    ((p = .fault → w &&& mask = 0) ∧ checkReserved p mask w i = .ok i) ∨
    (p = .fault ∧ w &&& mask ≠ 0 ∧ checkReserved p mask w i = .error .reservedBits) := by
  cases p with
  | ignore => exact .inl ⟨nofun, rfl⟩
  | fault =>
    by_cases h : w &&& mask = 0
    · exact .inl ⟨fun _ => h, if_pos h⟩
    · exact .inr ⟨rfl, h, if_neg h⟩

/-- Clearing bits that are zero already changes nothing. -/
theorem and_not_of_and_eq_zero {w mask : Word} (h : w &&& mask = 0) : w &&& ~~~ mask = w := by
  ext k hk
  have hbit : (w[k] && mask[k]) = false := by simpa using congrArg (fun v : Word => v[k]) h
  rw [BitVec.getElem_and, BitVec.getElem_not]
  grind

/-! ### The statements about words -/

/-- Settles O1: the decoder reads each format's fields back. -/
theorem decodeReadsEncodedInstruction : Obligations.DecodeReadsEncodedInstruction := decode_encode

/-- Settles O2: a word that passes the check has no reserved bit to lose. -/
theorem decodedWordIsItsEncoding : Obligations.DecodedWordIsItsEncoding := by
  intro w i h
  rcases decode_cases .fault w with ⟨_, _, hd⟩ | ⟨j, he, hd⟩
  · cases hd.symm.trans h
  rcases checkReserved_cases .fault (reservedMask (opcodeField w)) w j with ⟨hclear, hc⟩ | ⟨_, _, hc⟩
  · cases (hd.trans hc).symm.trans h
    exact he.trans (and_not_of_and_eq_zero (hclear rfl))
  · cases (hd.trans hc).symm.trans h

/-- With `ignore` a word decodes as it does under `fault` with its reserved bits zero, which is an encoding. -/
theorem decode_ignore (w : Word) : decode .ignore w = decode .fault (w &&& ~~~ reservedMask (opcodeField w)) := by
  rcases decode_cases .ignore w with ⟨hop, hm, hd⟩ | ⟨i, he, hd⟩
  · rw [hd, and_not_of_and_eq_zero (by rw [hm]; exact BitVec.and_zero), decode_unassigned .fault hop]
  · rw [← he, decode_encode]
    exact hd

theorem decode_fault_reserved {w : Word} (h : w &&& reservedMask (opcodeField w) ≠ 0) :
    decode .fault w = .error .reservedBits := by
  rcases decode_cases .fault w with ⟨_, hm, _⟩ | ⟨i, _, hd⟩
  · exact absurd (by rw [hm]; exact BitVec.and_zero) h
  · exact hd.trans (if_neg h)

/-- Settles O3. -/
theorem reservedBitsFaultOrAreIgnored : Obligations.ReservedBitsFaultOrAreIgnored := by
  refine ⟨decode_ignore, fun s w hh hf hp hr => ?_⟩
  simp [step, hh, hf, hp, decode_fault_reserved hr]

/-- Settles O4: the check of the reserved bits never answers `unassignedOpcode`. -/
theorem unassignedOpcodesAreIllegal : Obligations.UnassignedOpcodesAreIllegal := by
  refine ⟨fun p w => ⟨fun h => ?_, decode_unassigned p⟩, fun s w hh hf hop => ?_⟩
  · rcases decode_cases p w with ⟨hop, _⟩ | ⟨i, _, hd⟩
    · exact hop
    · rcases checkReserved_cases p (reservedMask (opcodeField w)) w i with ⟨_, hc⟩ | ⟨_, _, hc⟩ <;>
        cases (hd.trans hc).symm.trans h
  · simp [step, hh, hf, decode_unassigned _ hop]

/-- Settles O5: thirteen words and two refusals, decoded by evaluation. -/
theorem specWordsDecode : Obligations.SpecWordsDecode := by
  unfold Obligations.SpecWordsDecode
  decide

/-! ### Operands and their fields (R90, R92, D24) -/

theorem const16Ok_iff (v : Int) : const16Ok v = true ↔ 0 ≤ v ∧ v ≤ 65535 := by simp [const16Ok]

theorem off16Ok_iff (v : Int) : off16Ok v = true ↔ -32768 ≤ v ∧ v ≤ 32767 := by simp [off16Ok]

theorem const26Ok_iff (v : Int) : const26Ok v = true ↔ 0 ≤ v ∧ v ≤ 67108863 := by simp [const26Ok]

theorem off26Ok_iff (v : Int) : off26Ok v = true ↔ -33554432 ≤ v ∧ v ≤ 33554431 := by simp [off26Ok]

theorem const32Ok_iff (v : Int) : const32Ok v = true ↔ 0 ≤ v ∧ v ≤ 4294967295 := by simp [const32Ok]

/-- An unsigned number that a check keeps below `2 ^ n` is held by its field. -/
theorem checked_toNat {n : Nat} {v : Int} {ok : Bool} {c : BitVec n}
    (h : (if ok then some (BitVec.ofInt n v) else none) = some c) (hrange : ok = true → 0 ≤ v ∧ v < 2 ^ n) :
    (c.toNat : Int) = v := by
  obtain ⟨hok, hc⟩ := Option.ite_none_right_eq_some.mp h
  obtain ⟨h0, h1⟩ := hrange hok
  rw [← Option.some.inj hc, BitVec.toNat_ofInt, Nat.cast_pow, Nat.cast_ofNat, Int.emod_eq_of_lt h0 h1,
    Int.toNat_of_nonneg h0]

/-- A signed number that a check keeps in the two's complement of `n` bits is held by its field. -/
theorem checked_toInt {n : Nat} {v : Int} {ok : Bool} {o : BitVec n} (hn : 0 < n)
    (h : (if ok then some (BitVec.ofInt n v) else none) = some o)
    (hrange : ok = true → -2 ^ (n - 1) ≤ v ∧ v < 2 ^ (n - 1)) : o.toInt = v := by
  obtain ⟨hok, ho⟩ := Option.ite_none_right_eq_some.mp h
  obtain ⟨h0, h1⟩ := hrange hok
  rw [← Option.some.inj ho, BitVec.toInt_ofInt_eq_self hn h0 h1]

theorem asmConst16_holds {v : Int} {c : Half} (h : asmConst16 v = some c) : (c.toNat : Int) = v :=
  checked_toNat h fun hok => by rw [const16Ok_iff] at hok; omega

theorem asmOff16_holds {v : Int} {o : Half} (h : asmOff16 v = some o) : o.toInt = v :=
  checked_toInt (by decide) h fun hok => by rw [off16Ok_iff] at hok; omega

theorem asmConst26_holds {v : Int} {c : BitVec 26} (h : asmConst26 v = some c) : (c.toNat : Int) = v :=
  checked_toNat h fun hok => by rw [const26Ok_iff] at hok; omega

theorem asmOff26_holds {v : Int} {o : BitVec 26} (h : asmOff26 v = some o) : o.toInt = v :=
  checked_toInt (by decide) h fun hok => by rw [off26Ok_iff] at hok; omega

theorem asmConst32_holds {v : Int} {c : Word} (h : asmConst32 v = some c) : (c.toNat : Int) = v :=
  checked_toNat h fun hok => by rw [const32Ok_iff] at hok; omega

/-- Settles O45: each check is its range, and a number in range is not truncated. -/
theorem operandFieldsHoldTheirValues : Obligations.OperandFieldsHoldTheirValues := by
  intro v
  rw [asmConst16_isSome, asmOff16_isSome, asmConst26_isSome, asmOff26_isSome, asmConst32_isSome]
  exact ⟨const16Ok_iff v, fun _ => asmConst16_holds, off16Ok_iff v, fun _ => asmOff16_holds,
    const26Ok_iff v, fun _ => asmConst26_holds, off26Ok_iff v, fun _ => asmOff26_holds,
    const32Ok_iff v, fun _ => asmConst32_holds⟩

/-! ### Labels (R82, R83, R90) -/

/-- The sum of an address and four times a signed field that holds a quarter of the distance is the target, also where it wraps. -/
theorem add_signExtend_shiftLeft_two {n : Nat} {addr target : Word} {off : BitVec n}
    (h : 4 * off.toInt = (target.toNat : Int) - addr.toNat) : addr + (off.signExtend 32 <<< 2) = target := by
  have hshift : off.signExtend 32 <<< 2 = BitVec.ofInt 32 (4 * off.toInt) := by
    rw [BitVec.shiftLeft_eq_mul_twoPow, BitVec.ofInt_mul, BitVec.mul_comm]
    rfl
  rw [hshift, h]
  have haddr : addr = BitVec.ofInt 32 addr.toNat := by simp
  have htarget : target = BitVec.ofInt 32 target.toNat := by simp
  calc addr + BitVec.ofInt 32 (target.toNat - addr.toNat)
      = BitVec.ofInt 32 (addr.toNat + (target.toNat - addr.toNat)) := by rw [BitVec.ofInt_add, ← haddr]
    _ = target := by rw [add_sub_cancel, ← htarget]

theorem labelOff16_reaches {addr target : Word} {off : Half} (h : labelOff16 addr.toNat target.toNat = some off) :
    branchTarget addr off = target := by
  obtain ⟨hmul, hoff⟩ := Option.ite_none_right_eq_some.mp h
  have hval := asmOff16_holds hoff
  exact add_signExtend_shiftLeft_two (by omega)

theorem labelOff26_reaches {addr target : Word} {off : BitVec 26} (h : labelOff26 addr.toNat target.toNat = some off) :
    farBranchTarget addr off = target := by
  obtain ⟨hmul, hoff⟩ := Option.ite_none_right_eq_some.mp h
  have hval := asmOff26_holds hoff
  exact add_signExtend_shiftLeft_two (by omega)

theorem labelConst26_reaches {target : Word} {c : BitVec 26} (h : labelConst26 target.toNat = some c) :
    callTarget c = target := by
  obtain ⟨hmul, hc⟩ := Option.ite_none_right_eq_some.mp h
  have hval := asmConst26_holds hc
  refine BitVec.eq_of_toNat_eq ?_
  rw [callTarget, BitVec.toNat_shiftLeft, BitVec.toNat_setWidth, Nat.shiftLeft_eq]
  omega

/-- Settles O46. -/
theorem labelOperandsReachTheirTargets : Obligations.LabelOperandsReachTheirTargets :=
  fun _ _ => ⟨fun _ => labelOff16_reaches, fun _ => labelOff26_reaches, fun _ => labelConst26_reaches⟩

/-! ### Lines of assembly (R90 to R92, D24) -/

theorem isSome_return_one {α β : Type} (f : α → β) (a : Option α) : (do return f (← a)).isSome = a.isSome := by
  cases a <;> rfl

theorem isSome_return_two {α β γ : Type} (f : α → β → γ) (a : Option α) (b : Option β) :
    (do return f (← a) (← b)).isSome = (a.isSome && b.isSome) := by
  cases a with
  | none => rfl
  | some x => exact isSome_return_one (f x) b

theorem isSome_return_three {α β γ δ : Type} (f : α → β → γ → δ) (a : Option α) (b : Option β) (c : Option γ) :
    (do return f (← a) (← b) (← c)).isSome = (a.isSome && b.isSome && c.isSome) := by
  cases a with
  | none => rfl
  | some x => exact isSome_return_two (f x) b c

/-! Each shape is taken exactly where its operands pass their checks; operands of another shape are refused by both sides. -/

section Shapes

variable (os : List Operand)

theorem asmRRR_isSome (mk : Reg → Reg → Reg → Instr) : (asmRRR mk os).isSome = operandsOk .rrr os := by
  unfold asmRRR
  split
  · exact (isSome_return_three ..).trans (by simp only [asmReg_isSome, operandsOk])
  · unfold operandsOk; grind

theorem asmRRC_isSome (mk : Reg → Reg → Half → Instr) : (asmRRC mk os).isSome = operandsOk .rrConst16 os := by
  unfold asmRRC
  split
  · exact (isSome_return_three ..).trans (by simp only [asmReg_isSome, asmConst16_isSome, operandsOk])
  · unfold operandsOk; grind

theorem asmLoad_isSome (mk : Reg → Reg → Half → Instr) : (asmLoad mk os).isSome = operandsOk .rMem os := by
  unfold asmLoad
  split
  · exact (isSome_return_three ..).trans (by simp only [asmReg_isSome, asmOff16_isSome, operandsOk]; ac_rfl)
  · unfold operandsOk; grind

theorem asmStore_isSome (mk : Reg → Reg → Half → Instr) : (asmStore mk os).isSome = operandsOk .rMem os := by
  unfold asmStore
  split
  · exact (isSome_return_three ..).trans (by simp only [asmReg_isSome, asmOff16_isSome, operandsOk]; ac_rfl)
  · unfold operandsOk; grind

theorem asmBranch_isSome (mk : Reg → Reg → Half → Instr) : (asmBranch mk os).isSome = operandsOk .rrOff16 os := by
  unfold asmBranch
  split
  · exact (isSome_return_three ..).trans (by simp only [asmReg_isSome, asmOff16_isSome, operandsOk])
  · unfold operandsOk; grind

theorem asmRR_isSome (mk : Reg → Reg → Pseudo) : (asmRR mk os).isSome = operandsOk .rr os := by
  unfold asmRR
  split
  · exact (isSome_return_two ..).trans (by simp only [asmReg_isSome, operandsOk])
  · unfold operandsOk; grind

theorem asmROff_isSome (mk : Reg → Half → Pseudo) : (asmROff mk os).isSome = operandsOk .rOff16 os := by
  unfold asmROff
  split
  · exact (isSome_return_two ..).trans (by simp only [asmReg_isSome, asmOff16_isSome, operandsOk])
  · unfold operandsOk; grind

theorem asmRC16_isSome (mk : Reg → Half → List Instr) : (asmRC16 mk os).isSome = operandsOk .rConst16 os := by
  unfold asmRC16
  split
  · exact (isSome_return_two ..).trans (by simp only [asmReg_isSome, asmConst16_isSome, operandsOk])
  · unfold operandsOk; grind

theorem asmLi_isSome : (asmLi os).isSome = operandsOk .rConst32 os := by
  unfold asmLi
  split
  · exact (isSome_return_two ..).trans (by simp only [asmReg_isSome, asmConst32_isSome, operandsOk])
  · unfold operandsOk; grind

theorem asmJr_isSome : (asmJr os).isSome = operandsOk .r os := by
  unfold asmJr
  split
  · exact (isSome_return_one ..).trans (by simp only [asmReg_isSome, operandsOk])
  · unfold operandsOk; grind

theorem asmCall_isSome : (asmCall os).isSome = operandsOk .const26 os := by
  unfold asmCall
  split
  · exact (isSome_return_one ..).trans (by simp only [asmConst26_isSome, operandsOk])
  · unfold operandsOk; grind

theorem asmB_isSome : (asmB os).isSome = operandsOk .off26 os := by
  unfold asmB
  split
  · exact (isSome_return_one ..).trans (by simp only [asmOff26_isSome, operandsOk])
  · unfold operandsOk; grind

theorem asmNone_isSome (is : List Instr) : (asmNone is os).isSome = operandsOk .noOperand os := by
  cases os <;> rfl

end Shapes

/-- The assembler takes a line exactly where its operands have the shape and the ranges of its mnemonic. -/
theorem assemble_isSome (l : Line) : (assemble l).isSome = l.wf := by
  obtain ⟨m, os⟩ := l
  cases m with
  | add | sub | mulu | mul | divu | div | sll | srl | and | or | nor | xor => exact asmRRR_isSome os _
  | addi | subi | andi | ori | slli | srli => exact asmRRC_isSome os _
  | neg | move | not => exact asmRR_isSome os _
  | lui | lli => exact asmRC16_isSome os _
  | li => exact asmLi_isSome os
  | lb | lbu | lh | lhu | lw => exact asmLoad_isSome os _
  | sb | sh | sw => exact asmStore_isSome os _
  | beq | bne | bge | bgeu | bgt | bgtu | ble | bleu | blt | bltu => exact asmBranch_isSome os _
  | beqz | bnez => exact asmROff_isSome os _
  | jr => exact asmJr_isSome os
  | call => exact asmCall_isSome os
  | b => exact asmB_isSome os
  | ret | eret | nop | halt => exact asmNone_isSome os _

/-- Settles O44. -/
theorem assembleTakesWellFormedLines : Obligations.AssembleTakesWellFormedLines :=
  ⟨assemble_isSome, fun _ => decide_eq_true_iff,
    fun v => ⟨const16Ok_iff v, off16Ok_iff v, const26Ok_iff v, off26Ok_iff v, const32Ok_iff v⟩⟩

/-! ### Lines whose operands are the values of fields

The value of every field is in range, so such a line is taken and its operands come back as the fields. -/

section Fields

variable (d s t : Reg) (c o : Half)

theorem asmRRR_fields (mk : Reg → Reg → Reg → Instr) : asmRRR mk [.reg d, .reg s, .reg t] = some [mk d s t] := by
  simp [asmRRR, asmReg_val]

theorem asmRRC_fields (mk : Reg → Reg → Half → Instr) : asmRRC mk [.reg d, .reg s, .num c.toNat] = some [mk d s c] := by
  simp [asmRRC, asmReg_val, asmConst16_toNat]

theorem asmLoad_fields (mk : Reg → Reg → Half → Instr) : asmLoad mk [.reg d, .mem o.toInt s] = some [mk d s o] := by
  simp [asmLoad, asmReg_val, asmOff16_toInt]

theorem asmStore_fields (mk : Reg → Reg → Half → Instr) : asmStore mk [.reg s, .mem o.toInt d] = some [mk d s o] := by
  simp [asmStore, asmReg_val, asmOff16_toInt]

theorem asmBranch_fields (mk : Reg → Reg → Half → Instr) :
    asmBranch mk [.reg d, .reg s, .num o.toInt] = some [mk d s o] := by
  simp [asmBranch, asmReg_val, asmOff16_toInt]

theorem asmRR_fields (mk : Reg → Reg → Pseudo) : asmRR mk [.reg d, .reg s] = some (expand (mk d s)) := by
  simp [asmRR, asmReg_val]

theorem asmROff_fields (mk : Reg → Half → Pseudo) : asmROff mk [.reg d, .num o.toInt] = some (expand (mk d o)) := by
  simp [asmROff, asmReg_val, asmOff16_toInt]

theorem asmRC16_fields (mk : Reg → Half → List Instr) : asmRC16 mk [.reg d, .num c.toNat] = some (mk d c) := by
  simp [asmRC16, asmReg_val, asmConst16_toNat]

theorem asmLi_fields (w : Word) : asmLi [.reg d, .num w.toNat] = some (expand (.li d w)) := by
  simp [asmLi, asmReg_val, asmConst32_toNat]

theorem asmJr_fields : asmJr [.reg d] = some [.jr d] := by simp [asmJr, asmReg_val]

theorem asmCall_fields (c26 : BitVec 26) : asmCall [.num c26.toNat] = some [.call c26] := by
  simp [asmCall, asmConst26_toNat]

theorem asmB_fields (o26 : BitVec 26) : asmB [.num o26.toInt] = some [.b o26] := by simp [asmB, asmOff26_toInt]

end Fields

/-- Settles O59: each mnemonic's line is a line of its shape. -/
theorem assembledLinesAreTheirInstructions : Obligations.AssembledLinesAreTheirInstructions := by
  intro d s t c o c26 o26 w
  refine ⟨?rrr, ?constants, ?loads, ?stores, ?branches, asmRC16_fields .., asmJr_fields d, asmCall_fields c26,
    asmB_fields o26, rfl, rfl, asmRR_fields .., asmRC16_fields .., asmLi_fields d w, asmRR_fields .., asmRR_fields ..,
    asmROff_fields .., asmROff_fields .., rfl, rfl⟩
  case rrr => intro e he; fin_cases he <;> exact asmRRR_fields ..
  case constants => intro e he; fin_cases he <;> exact asmRRC_fields ..
  case loads => intro e he; fin_cases he <;> exact asmLoad_fields ..
  case stores => intro e he; fin_cases he <;> exact asmStore_fields ..
  case branches => intro e he; fin_cases he <;> exact asmBranch_fields ..

/-! ### Text (R90) -/

theorem digitOf_digitChar : ∀ {n : Nat}, n < 10 → digitOf n.digitChar = some n := by decide

/-- Digits are read back from the first: a number's last digit is read after those of its tenth. -/
theorem digitsFrom_toDigits (n : Nat) : digitsFrom 0 (Nat.toDigits 10 n) = some n := by
  induction n using Nat.strongRecOn with
  | ind n ih =>
    by_cases h : n < 10
    · rw [Nat.toDigits_of_lt_base h]
      simp [digitsFrom, digitOf_digitChar h]
    · rw [Nat.toDigits_of_base_le (by decide) (by omega), digitsFrom_append _ (ih (n / 10) (by omega))]
      simp [digitsFrom, digitOf_digitChar (Nat.mod_lt n (by decide : 10 > 0))]
      omega

theorem parseNat_toDigits (n : Nat) : parseNat (Nat.toDigits 10 n) = some n := by
  cases h : Nat.toDigits 10 n with
  | nil => exact absurd h Nat.toDigits_ne_nil
  | cons c cs => rw [parseNat, ← h, digitsFrom_toDigits]

theorem parseLine_append_comment (names : Names) (t c : Text) : parseLine names (t ++ '#' :: c) = parseLine names t := by
  unfold parseLine
  rw [stripComment_append]

/-- Settles O43: comments and numbers for every text and every number; the 51 mnemonics and the manual's lines by
evaluation. -/
theorem commentsAndSpellings : Obligations.CommentsAndSpellings := by
  refine ⟨parseLine_append_comment, fun n => ⟨parseNat_toDigits n, parseNat_toDigits n, parseNat_toDigits n⟩,
    ?mnemonics, ?lines⟩
  case mnemonics => decide
  case lines => decide

end Sys2Proof.Machine

/-! SUPPORT. Arithmetic and the pseudo-instructions of one machine instruction: the statements of 40_arithmetic.md, with
LLI and MOVE of 41_immediate_and_move.md and NOT of 42_shift_and_logic.md (R104, R121, R123, R138). -/

namespace Sys2Proof.Machine

/-! ### Constants (R78, R79) -/

theorem zextConst16_eq_ofNat (c : Half) : zextConst16 c = BitVec.ofNat 32 c.toNat := (BitVec.ofNat_toNat 32 c).symm

theorem zextConst16_eq_append (c : Half) : zextConst16 c = 0#16 ++ c := BitVec.setWidth_eq_append (by decide)

/-! ### The halves of a 64-bit product (R105, R106) -/

/-- A doubleword is its high half before its low half. -/
theorem high_append_low (p : BitVec 64) : p.extractLsb' 32 32 ++ p.extractLsb' 0 32 = p :=
  calc p.extractLsb' 32 32 ++ p.extractLsb' 0 32
      = p.extractLsb' 0 64 := BitVec.extractLsb'_append_extractLsb'_eq_extractLsb' rfl
    _ = p := BitVec.extractLsb'_eq_self

theorem toNat_halves (p : BitVec 64) : (p.extractLsb' 32 32).toNat * 2 ^ 32 + (p.extractLsb' 0 32).toNat = p.toNat := by
  have happend := congrArg BitVec.toNat (high_append_low p)
  rwa [BitVec.toNat_append, ← Nat.shiftLeft_add_eq_or_of_lt (BitVec.isLt _), Nat.shiftLeft_eq] at happend

/-- Read as signed, a doubleword has its sign in the high half alone. -/
theorem toInt_halves (p : BitVec 64) :
    (p.extractLsb' 32 32).toInt * 2 ^ 32 + ((p.extractLsb' 0 32).toNat : Int) = p.toInt := by
  have happend := congrArg BitVec.toInt (high_append_low p)
  rwa [BitVec.toInt_append, if_neg (by decide), mul_comm] at happend

/-- An unsigned product of words fits 64 bits. -/
theorem mulUnsigned_exact (a b : Word) :
    (mulUnsigned a b).2.toNat * 2 ^ 32 + (mulUnsigned a b).1.toNat = a.toNat * b.toNat := by
  have hlt : a.toNat * b.toNat < 2 ^ 64 := BitVec.toNat_mul_toNat_lt
  exact (toNat_halves _).trans (Nat.mod_eq_of_lt hlt)

/-- A signed product of words fits 64 bits: it lies between -2^62 and 2^62. -/
theorem mulSigned_exact (a b : Word) :
    (mulSigned a b).2.toInt * 2 ^ 32 + ((mulSigned a b).1.toNat : Int) = a.toInt * b.toInt := by
  have hlo : -2 ^ 62 ≤ a.toInt * b.toInt := BitVec.le_toInt_mul_toInt
  have hhi : a.toInt * b.toInt ≤ 2 ^ 62 := BitVec.toInt_mul_toInt_le
  exact (toInt_halves _).trans (BitVec.toInt_ofInt_eq_self (by decide) (by omega) (by omega))

/-! ### Division (R107, R108, R110) -/

/-- What a division does in either case of its divisor. -/
theorem divideBy_spec (rd : Reg) (b : Word) (v : Word × Word) (s : State) :
    (b = 0 → divideBy rd b v s = .fault .divideByZero) ∧
    (b ≠ 0 → ∃ t, divideBy rd b v s = .next t ∧ WritesPair s t rd v.1 v.2) := by
  rcases divideBy_cases rd b v s with ⟨hb, e⟩ | ⟨hb, e⟩
  · exact ⟨fun _ => e, fun h => absurd hb h⟩
  · exact ⟨fun h => absurd h hb, fun _ => e ▸ finishPair_spec rd v s⟩

/-- The unsigned results are the quotient and the remainder of words. -/
theorem divRemUnsigned_eq (a b : Word) : divRemUnsigned a b = (a / b, a % b) := by
  refine Prod.ext (BitVec.eq_of_toNat_eq ?quotient) (BitVec.eq_of_toNat_eq ?remainder)
  case quotient =>
    exact Nat.mod_eq_of_lt (Nat.lt_of_le_of_lt (Nat.div_le_self _ _) a.isLt)
  case remainder =>
    rw [BitVec.toNat_umod, Nat.mod_eq_sub_div_mul]
    exact Nat.mod_eq_of_lt (Nat.lt_of_le_of_lt (Nat.sub_le _ _) a.isLt)

theorem divRemUnsigned_identity {a b : Word} (hb : b ≠ 0) :
    a.toNat = (divRemUnsigned a b).1.toNat * b.toNat + (divRemUnsigned a b).2.toNat ∧
      (divRemUnsigned a b).2.toNat < b.toNat := by
  have hpos : 0 < b.toNat := Nat.pos_of_ne_zero fun h => hb (BitVec.eq_of_toNat_eq h)
  rw [divRemUnsigned_eq, BitVec.toNat_udiv, BitVec.toNat_umod]
  exact ⟨(Nat.div_add_mod' _ _).symm, Nat.mod_lt _ hpos⟩

/-- `SDIVREM` is the truncating quotient and the remainder of words; the corner -2^31 / -1 wraps in both. -/
theorem sdivrem_eq (a b : Word) : sdivrem a b = (a.sdiv b, a.srem b) := by
  refine Prod.ext (BitVec.eq_of_toInt_eq ?quotient) (BitVec.eq_of_toInt_eq ?remainder)
  case quotient => rw [sdivrem, BitVec.toInt_ofInt, BitVec.toInt_sdiv]
  case remainder =>
    have hrem : a.toInt - a.toInt.tdiv b.toInt * b.toInt = (a.srem b).toInt := by
      rw [BitVec.toInt_srem, Int.tmod_def, mul_comm]
    rw [sdivrem, hrem, BitVec.ofInt_toInt]

/-- The corner whose exact quotient, 2^31, is no signed word (D11). -/
theorem sdivrem_corner : sdivrem 0x80000000 0xFFFFFFFF = (0x80000000, 0) := by decide

/-- The remainder of a truncating division is zero or has the dividend's sign. -/
theorem tmod_eq_zero_or_neg_iff (a b : Int) : a.tmod b = 0 ∨ (a.tmod b < 0 ↔ a < 0) := by
  have hsign := Int.sign_tmod a b
  by_cases h : b ∣ a
  · rw [if_pos h] at hsign
    exact .inl (Int.sign_eq_zero_iff_zero.mp hsign)
  · rw [if_neg h] at hsign
    exact .inr (by rw [← Int.sign_eq_neg_one_iff_neg, hsign, Int.sign_eq_neg_one_iff_neg])

theorem abs_tmod_lt (a : Int) {b : Int} (hb : b ≠ 0) : |a.tmod b| < |b| := by
  rw [Int.abs_eq_natAbs, Int.abs_eq_natAbs, Int.natAbs_tmod]
  exact_mod_cast Nat.mod_lt _ (Int.natAbs_pos.mpr hb)

/-- Outside the corner no result of `SDIVREM` is narrowed, so they meet the identity of the integers. -/
theorem sdivrem_identity {a b : Word} (hb : b ≠ 0) (hcorner : ¬ (a = 0x80000000 ∧ b = 0xFFFFFFFF)) :
    a.toInt = (sdivrem a b).1.toInt * b.toInt + (sdivrem a b).2.toInt ∧
      |(sdivrem a b).2.toInt| < |b.toInt| ∧
      ((sdivrem a b).2.toInt = 0 ∨ ((sdivrem a b).2.toInt < 0 ↔ a.toInt < 0)) := by
  have hne : a ≠ BitVec.intMin 32 ∨ b ≠ -1#32 := not_and_or.mp hcorner
  have hb0 : b.toInt ≠ 0 := fun h => hb (BitVec.eq_of_toInt_eq h)
  rw [sdivrem_eq, BitVec.toInt_sdiv_of_ne_or_ne a b hne, BitVec.toInt_srem]
  exact ⟨(Int.tdiv_mul_add_tmod _ _).symm, abs_tmod_lt _ hb0, tmod_eq_zero_or_neg_iff _ _⟩

/-! ### The statements about arithmetic -/

/-- Settles O17: the corner is evaluated, and outside it the quotient and the remainder are those of the integers. -/
theorem divWritesTruncatedQuotientAndRemainder : Obligations.DivWritesTruncatedQuotientAndRemainder := by
  intro rd rs rt s
  obtain ⟨hzero, hnext⟩ := divideBy_spec rd (s.readReg rt) (sdivrem (s.readReg rs) (s.readReg rt)) s
  refine ⟨fun p => decode_encode p (.div rd rs rt), hzero, fun hb => ?_⟩
  obtain ⟨t, he, hw⟩ := hnext hb
  refine ⟨t, _, _, he, hw, ?_⟩
  split
  · next hcorner =>
    obtain ⟨ha, hb1⟩ := hcorner
    rw [ha, hb1, sdivrem_corner]
    exact ⟨rfl, rfl⟩
  · next hcorner => exact sdivrem_identity hb hcorner

/-- Settles O10. -/
theorem addWritesSum : Obligations.AddWritesSum :=
  fun rd rs rt s => ⟨fun p => decode_encode p (.add rd rs rt), finishReg_spec rd _ s⟩

/-- Settles O11. -/
theorem addiAddsUnsignedConstant : Obligations.AddiAddsUnsignedConstant := by
  intro rd rs c s
  rw [← zextConst16_eq_ofNat]
  exact ⟨fun p => decode_encode p (.addi rd rs c), finishReg_spec rd _ s⟩

/-- Settles O12. -/
theorem subWritesDifference : Obligations.SubWritesDifference :=
  fun rd rs rt s => ⟨fun p => decode_encode p (.sub rd rs rt), finishReg_spec rd _ s⟩

/-- Settles O13. -/
theorem subiSubtractsUnsignedConstant : Obligations.SubiSubtractsUnsignedConstant := by
  intro rd rs c s
  rw [← zextConst16_eq_ofNat]
  exact ⟨fun p => decode_encode p (.subi rd rs c), finishReg_spec rd _ s⟩

/-- Settles O14: the halves of a product that fits are the product. -/
theorem muluWritesUnsignedProduct : Obligations.MuluWritesUnsignedProduct := by
  intro rd rs rt s
  obtain ⟨t, he, hw⟩ := finishPair_spec rd (mulUnsigned (s.readReg rs) (s.readReg rt)) s
  exact ⟨fun p => decode_encode p (.mulu rd rs rt), t, _, _, he, hw, mulUnsigned_exact _ _⟩

/-- Settles O15: the halves of a product that fits are the product, the sign in the high one. -/
theorem mulWritesSignedProduct : Obligations.MulWritesSignedProduct := by
  intro rd rs rt s
  obtain ⟨t, he, hw⟩ := finishPair_spec rd (mulSigned (s.readReg rs) (s.readReg rt)) s
  exact ⟨fun p => decode_encode p (.mul rd rs rt), t, _, _, he, hw, mulSigned_exact _ _⟩

/-- Settles O16. -/
theorem divuWritesQuotientAndRemainder : Obligations.DivuWritesQuotientAndRemainder := by
  intro rd rs rt s
  obtain ⟨hzero, hnext⟩ := divideBy_spec rd (s.readReg rt) (divRemUnsigned (s.readReg rs) (s.readReg rt)) s
  refine ⟨fun p => decode_encode p (.divu rd rs rt), hzero, fun hb => ?_⟩
  obtain ⟨t, he, hw⟩ := hnext hb
  exact ⟨t, _, _, he, hw, divRemUnsigned_identity hb⟩

/-! ### Pseudo-instructions of one word (R91) -/

/-- A sequence of one instruction is that instruction. -/
theorem execSeq_singleton (i : Instr) (s : State) : execSeq [i] s = exec i s := by
  rw [execSeq]
  cases exec i s <;> rfl

/-- A pseudo-instruction whose one instruction ends with a register result writes that result and nothing else. -/
theorem execPseudo_writesReg {q : Pseudo} {i : Instr} {s : State} {rd : Reg} {v : Word} (hq : expand q = [i])
    (hi : exec i s = finishReg rd v s) : ∃ t, execPseudo q s = .next t ∧ WritesReg s t rd v := by
  rw [execPseudo, hq, execSeq_singleton, hi]
  exact finishReg_spec rd v s

/-- Settles O40: R0 reads as zero in the instructions of NEG, LLI and MOVE, and NOT is NOR of a register with itself. -/
theorem oneWordPseudoResults : Obligations.OneWordPseudoResults := by
  intro rd rs c s
  refine ⟨rfl, rfl, rfl, rfl, execPseudo_writesReg rfl ?neg, execPseudo_writesReg rfl ?lli,
    execPseudo_writesReg rfl ?move, execPseudo_writesReg rfl ?not⟩
  case neg => rw [exec, execSub, readReg_zero]; exact congrArg (finishReg rd · s) (BitVec.zero_sub _)
  case lli => rw [exec, execOri, readReg_zero, zextConst16_eq_append]; exact congrArg (finishReg rd · s) BitVec.zero_or
  case move => rw [exec, execAdd, readReg_zero]; exact congrArg (finishReg rd · s) (BitVec.add_zero _)
  case not => rw [exec, execNor, BitVec.or_self]

end Sys2Proof.Machine

/-! SUPPORT. Constants of a whole word: the statements about LUI and LI of 41_immediate_and_move.md (R120, R122). -/

namespace Sys2Proof.Machine

/-! ### A word and its halfwords (R79, R81) -/

/-- The constants of LUI and ORI do not overlap, so their OR is the one before the other. -/
theorem upperConst16_or_zextConst16 (hi lo : Half) : upperConst16 hi ||| zextConst16 lo = hi ++ lo := by
  have hor : (hi ++ 0#16) ||| (0#16 ++ lo) = (hi ||| 0#16) ++ (0#16 ||| lo) := BitVec.or_append
  rw [zextConst16_eq_append]
  exact hor.trans (congrArg₂ (· ++ ·) BitVec.or_zero BitVec.zero_or)

/-- A word is its upper halfword before its lower halfword. -/
theorem upperHalf_append_lowerHalf (c : Word) : c.extractLsb' 16 16 ++ c.extractLsb' 0 16 = c :=
  calc c.extractLsb' 16 16 ++ c.extractLsb' 0 16
      = c.extractLsb' 0 32 := BitVec.extractLsb'_append_extractLsb'_eq_extractLsb' rfl
    _ = c := BitVec.extractLsb'_eq_self

/-! ### Two register results in the same register -/

/-- A register result over another: the second is what is left, two instructions on. -/
theorem WritesReg.overwrite {s t u : State} {rd : Reg} {v w : Word} (hst : WritesReg s t rd v)
    (htu : WritesReg t u rd w) :
    u.readReg rd = (if rd = 0 then 0 else w) ∧ (∀ r, r ≠ rd → u.readReg r = s.readReg r) ∧
      SameMemory s u ∧ SameSystem s u ∧ u.pc = s.pc + 8 := by
  obtain ⟨_, hregs, hmem, ⟨hepc, hhalt, hplat⟩, hpc⟩ := hst
  obtain ⟨hval, hregs', hmem', ⟨hepc', hhalt', hplat'⟩, hpc'⟩ := htu
  refine ⟨hval, fun r hr => (hregs' r hr).trans (hregs r hr), fun a => (hmem' a).trans (hmem a),
    ⟨hepc'.trans hepc, hhalt'.trans hhalt, hplat'.trans hplat⟩, ?pc⟩
  case pc => rw [hpc', hpc, BitVec.add_assoc]; rfl

/-- An instruction that completes hands its state to the rest of the sequence. -/
theorem execSeq_cons_of_next {i : Instr} {is : List Instr} {s t : State} (h : exec i s = .next t) :
    execSeq (i :: is) s = execSeq is t := by
  rw [execSeq, h]

/-! ### The statements about LUI and LI -/

/-- Settles O41: ORI reads back the upper halfword that LUI has written and joins the lower one to it; for R0 both results are
ignored. -/
theorem liLoadsWholeConstant : Obligations.LiLoadsWholeConstant := by
  intro rd c s
  obtain ⟨t, hlui, hst⟩ := finishReg_spec rd (upperConst16 (c.extractLsb' 16 16)) s
  obtain ⟨u, hori, htu⟩ := finishReg_spec rd (t.readReg rd ||| zextConst16 (c.extractLsb' 0 16)) t
  obtain ⟨hval, hframe⟩ := hst.overwrite htu
  refine ⟨rfl, u, ?runs, ?value, hframe⟩
  case runs =>
    have hfirst : exec (.lui rd (c.extractLsb' 16 16)) s = .next t := hlui
    have hsecond : exec (.ori rd rd (c.extractLsb' 0 16)) t = .next u := hori
    rw [execPseudo, expand, execSeq_cons_of_next hfirst, execSeq_singleton, hsecond]
  case value =>
    obtain ⟨hupper, _⟩ := hst
    by_cases h0 : rd = 0
    · rw [hval, if_pos h0, if_pos h0]
    · rw [hval, hupper, if_neg h0, if_neg h0, if_neg h0, upperConst16_or_zextConst16, upperHalf_append_lowerHalf]

/-- Settles O18: LUI's word is its encoding, and it ends with one register result. -/
theorem luiLoadsUpperHalfword : Obligations.LuiLoadsUpperHalfword :=
  fun rd c s => ⟨fun p => decode_encode p (.lui rd c), finishReg_spec rd (upperConst16 c) s⟩

end Sys2Proof.Machine

/-! SUPPORT. Shifts and logic: the statements of 42_shift_and_logic.md (R130 to R137, R139, R140). -/

namespace Sys2Proof.Machine

/-! ### Shift amounts (R80) -/

/-- The five lower bits of a value are its remainder by 32. -/
theorem toNat_lowFiveBits {n : Nat} (v : BitVec n) : (v.extractLsb' 0 5).toNat = v.toNat % 32 :=
  BitVec.extractLsb'_toNat 0 5 v

theorem shiftAmountReg_eq_mod (v : Word) : shiftAmountReg v = v.toNat % 32 := toNat_lowFiveBits v

theorem shiftAmountImm_eq_mod (c : Half) : shiftAmountImm c = c.toNat % 32 := toNat_lowFiveBits c

/-- A logical right shift is the unsigned quotient by a power of two (R132, R133). -/
theorem ushiftRight_eq_ofNat_div (a : Word) (n : Nat) : a >>> n = BitVec.ofNat 32 (a.toNat / 2 ^ n) := by
  rw [← Nat.shiftRight_eq_div_pow, ← BitVec.toNat_ushiftRight, BitVec.ofNat_toNat, BitVec.setWidth_eq]

/-! ### The statements about shifts and logic -/

/-- Settles O19: the model's shift amounts are the remainders by 32, in the register form and in the constant form. -/
theorem leftShiftsUseFiveBits : Obligations.LeftShiftsUseFiveBits := by
  refine ⟨fun rd rs rt s => ⟨fun p => decode_encode p (.sll rd rs rt), ?register⟩,
    fun rd rs c s => ⟨fun p => decode_encode p (.slli rd rs c), ?constant⟩⟩
  case register => rw [← shiftAmountReg_eq_mod]; exact finishReg_spec rd _ s
  case constant => rw [← shiftAmountImm_eq_mod]; exact finishReg_spec rd _ s

/-- Settles O20: the shift amounts are those of O19, and a shift that fills with zeros divides the unsigned reading. -/
theorem rightShiftsUseFiveBits : Obligations.RightShiftsUseFiveBits := by
  refine ⟨fun rd rs rt s => ⟨fun p => decode_encode p (.srl rd rs rt), ?register⟩,
    fun rd rs c s => ⟨fun p => decode_encode p (.srli rd rs c), ?constant⟩⟩
  case register =>
    rw [← shiftAmountReg_eq_mod, ← ushiftRight_eq_ofNat_div]
    exact finishReg_spec rd _ s
  case constant =>
    rw [← shiftAmountImm_eq_mod, ← ushiftRight_eq_ofNat_div]
    exact finishReg_spec rd _ s

/-- Settles O21: each word is its instruction's encoding, and each instruction ends with one register result. -/
theorem logicOfTwoRegisters : Obligations.LogicOfTwoRegisters :=
  fun rd rs rt s =>
    ⟨fun p => ⟨decode_encode p (.and rd rs rt), decode_encode p (.or rd rs rt), decode_encode p (.nor rd rs rt),
        decode_encode p (.xor rd rs rt)⟩,
      finishReg_spec rd _ s, finishReg_spec rd _ s, finishReg_spec rd _ s, finishReg_spec rd _ s⟩

/-- Settles O22: the zero-extension of the constant puts 16 zero bits above it. -/
theorem logicWithZeroExtendedConstant : Obligations.LogicWithZeroExtendedConstant := by
  intro rd rs c s
  rw [← zextConst16_eq_append]
  exact ⟨fun p => ⟨decode_encode p (.andi rd rs c), decode_encode p (.ori rd rs c)⟩,
    finishReg_spec rd _ s, finishReg_spec rd _ s⟩

end Sys2Proof.Machine

/-! SUPPORT. Loads and stores: the statements of 43_load_store.md (R150 to R158). -/

namespace Sys2Proof.Machine

/-! ### Reading memory (20_memory.md R42, R46, R51) -/

/-- Everything a read of `n` bytes at `ea` can answer where the alignment is right: `datum` is the value read, given the bytes
by their distance from `ea`. -/
def ReadsOrAccessFault {α : Type} (r : Except Fault α) (s : State) (ea : Word) (n : Nat) (datum : (Nat → Byte) → α) : Prop :=
  ((∃ k, k < n ∧ s.byteAt (ea.toNat + k) = none) → r = .error (.accessFault ea)) ∧
  (∀ bytes : Nat → Byte, (∀ k, k < n → s.byteAt (ea.toNat + k) = some (bytes k)) → r = .ok (datum bytes))

/-- Everything a read of 2 or 4 bytes can answer. -/
def ReadsOrStops {α : Type} (r : Except Fault α) (s : State) (ea : Word) (n : Nat) (datum : (Nat → Byte) → α) : Prop :=
  (ea.toNat % n ≠ 0 → r = .error (.misalignedData ea)) ∧ (ea.toNat % n = 0 → ReadsOrAccessFault r s ea n datum)

theorem memRead8_reads (s : State) (ea : Word) : ReadsOrAccessFault (memRead8 s ea) s ea 1 (fun b => b 0) := by
  refine ⟨?absent, fun bytes h => memRead8_of_byteAt (h 0 (by decide))⟩
  case absent =>
    rintro ⟨k, hk, hb⟩
    obtain rfl : k = 0 := by omega
    rcases memRead8_cases s ea with ⟨b, hsome, _⟩ | ⟨_, e⟩
    · cases hsome.symm.trans hb
    · exact e

theorem memRead16_reads (s : State) (ea : Word) :
    ReadsOrStops (memRead16 s ea) s ea 2 (fun b => halfOfBytes (b 0) (b 1)) := by
  refine ⟨fun ha => if_neg (by simpa [alignedTo] using ha), fun ha => ⟨?absent, fun bytes h => ?present⟩⟩
  case absent =>
    rintro ⟨k, hk, hb⟩
    rcases memRead16_cases s ea with ⟨hna, _⟩ | ⟨b0, b1, _, h0, h1, _⟩ | ⟨_, _, e⟩
    · simp [alignedTo, ha] at hna
    · interval_cases k
      · cases h0.symm.trans hb
      · cases h1.symm.trans hb
    · exact e
  case present => exact memRead16_of_byteAt ha (h 0 (by decide)) (h 1 (by decide))

theorem memRead32_reads (s : State) (ea : Word) :
    ReadsOrStops (memRead32 s ea) s ea 4 (fun b => wordOfBytes (b 0) (b 1) (b 2) (b 3)) := by
  refine ⟨fun ha => if_neg (by simpa [alignedTo] using ha), fun ha => ⟨?absent, fun bytes h => ?present⟩⟩
  case absent =>
    rintro ⟨k, hk, hb⟩
    rcases memRead32_cases s ea with ⟨hna, _⟩ | ⟨w, _, hw, _⟩ | ⟨_, _, e⟩
    · simp [alignedTo, ha] at hna
    · cases hw.symm.trans (wordAt_eq_none hk hb)
    · exact e
  case present =>
    exact memRead32_of_wordAt ha (wordAt_eq_some.mpr ⟨_, _, _, _, h 0 (by decide), h 1 (by decide), h 2 (by decide),
      h 3 (by decide), rfl⟩)

/-! ### Loads (R158) -/

section Loads
variable {α : Type} {r : Except Fault α} {s : State} {ea : Word} {n : Nat} {datum : (Nat → Byte) → α}

/-- A load is its read followed by the extension `f` and one register result. -/
theorem ReadsOrAccessFault.load (h : ReadsOrAccessFault r s ea n datum) (rd : Reg) (f : α → Word) :
    LoadsOrAccessFault (finishLoad rd (r.map f) s) s rd ea n (fun b => f (datum b)) := by
  obtain ⟨habsent, hpresent⟩ := h
  refine ⟨fun hb => ?absent, fun bytes hb => ?present⟩
  case absent => rw [habsent hb]; rfl
  case present => rw [hpresent bytes hb]; exact finishReg_spec rd _ s

theorem ReadsOrStops.load (h : ReadsOrStops r s ea n datum) (rd : Reg) (f : α → Word) :
    LoadsOrStops (finishLoad rd (r.map f) s) s rd ea n (fun b => f (datum b)) := by
  obtain ⟨hmisaligned, haligned⟩ := h
  refine ⟨fun ha => ?misaligned, fun ha => (haligned ha).load rd f⟩
  case misaligned => rw [hmisaligned ha]; rfl

end Loads

theorem setWidth_byte_eq_append (b : Byte) : b.setWidth 32 = 0#24 ++ b := BitVec.setWidth_eq_append (by decide)

/-- A zero-extended halfword is 16 zero bits above its two bytes. -/
theorem setWidth_halfOfBytes (b0 b1 : Byte) : (halfOfBytes b0 b1).setWidth 32 = 0#16 ++ b1 ++ b0 :=
  calc (halfOfBytes b0 b1).setWidth 32
      = 0#16 ++ (b1 ++ b0) := zextConst16_eq_append _
    _ = (0#16 ++ (b1 ++ b0)).cast rfl := (BitVec.cast_eq rfl _).symm
    _ = 0#16 ++ b1 ++ b0 := BitVec.append_assoc.symm

/-- Settles O23: the byte read, extended by LB with its sign and by LBU with zeros. -/
theorem byteLoads : Obligations.ByteLoads := by
  intro rd rs off s
  simp only [← setWidth_byte_eq_append]
  have hread := memRead8_reads s (effectiveAddress rs off s)
  exact ⟨fun p => ⟨decode_encode p (.lb rd rs off), decode_encode p (.lbu rd rs off)⟩, hread.load rd _, hread.load rd _⟩

/-- Settles O24: the halfword read, extended by LH with its sign and by LHU with zeros. -/
theorem halfwordLoads : Obligations.HalfwordLoads := by
  intro rd rs off s
  simp only [← setWidth_halfOfBytes]
  have hread := memRead16_reads s (effectiveAddress rs off s)
  exact ⟨fun p => ⟨decode_encode p (.lh rd rs off), decode_encode p (.lhu rd rs off)⟩, hread.load rd _, hread.load rd _⟩

/-- A word needs no extension. -/
theorem execLw_eq (rd rs : Reg) (off : Half) (s : State) :
    exec (.lw rd rs off) s = finishLoad rd ((memRead32 s (effectiveAddress rs off s)).map id) s := by
  rw [Except.map_id]; rfl

/-- Settles O25: the word read goes to the register as it is. -/
theorem wordLoad : Obligations.WordLoad := by
  intro rd rs off s
  rw [execLw_eq]
  exact ⟨fun p => decode_encode p (.lw rd rs off), (memRead32_reads s _).load rd id⟩

/-! ### Stores (20_memory.md R43, R46, R51, R56; R158) -/

theorem allMapped_false_iff {p : Platform} {a n : Nat} :
    allMapped p a n = false ↔ ∃ k, k < n ∧ isMapped p (a + k) = false := by
  simp [allMapped, accessRange]

theorem anyText_iff {p : Platform} {a n : Nat} : anyText p a n = true ↔ ∃ k, k < n ∧ isText p (a + k) = true := by
  simp [anyText, accessRange]

/-- The clauses of a store in terms of the model's own checks, which exclude each other. -/
theorem storesOrAccessFault_iff {r : Result} {s : State} {ea : Word} {n : Nat} {bytes : Nat → Byte} :
    StoresOrAccessFault r s ea n bytes ↔
      (allMapped s.platform ea.toNat n = false → r = .fault (.accessFault ea)) ∧
      (allMapped s.platform ea.toNat n = true → s.platform.smcPolicy = .refuse → anyText s.platform ea.toNat n = true →
        r = .refused (.storeToProgramText ea)) ∧
      (allMapped s.platform ea.toNat n = true →
        (s.platform.smcPolicy = .refuse → anyText s.platform ea.toNat n = false) →
        ∃ t, r = .next t ∧ StoresBytes s t ea n bytes) := by
  rw [allMapped_false_iff, allMapped_iff, anyText_iff, anyText_false_iff]
  exact Iff.rfl

/-- What is stored depends on the values of the `n` bytes alone. -/
theorem StoresBytes.congr {s t : State} {ea : Word} {n : Nat} {f g : Nat → Byte} (h : StoresBytes s t ea n f)
    (hfg : ∀ k, k < n → f k = g k) : StoresBytes s t ea n g := by
  obtain ⟨hbytes, hframe⟩ := h
  exact ⟨fun k hk => (hbytes k hk).trans (congrArg some (hfg k hk)), hframe⟩

/-- What `memWrite` does, in the terms of `Safety`: each outcome of its checks meets its own clause, and the other clauses ask
for an outcome that did not occur. -/
theorem memWrite_stores {ea : Word} {bytes : List Byte} {s : State} {f : Nat → Byte}
    (hf : ∀ k, k < bytes.length → bytes.getD k 0 = f k) :
    StoresOrStops (memWrite ea bytes s) s ea bytes.length f := by
  rw [StoresOrStops, storesOrAccessFault_iff]
  rcases memWrite_cases ea bytes s with ⟨ha, e⟩ | ⟨ha, hm, e⟩ | ⟨ha, hm, hp, ht, e⟩ | ⟨ha, hm, hx, e⟩
  · have hne : ea.toNat % bytes.length ≠ 0 := of_decide_eq_false ha
    exact ⟨fun _ => e, fun h => absurd h hne⟩
  · exact ⟨fun h => absurd (of_decide_eq_true ha) h, fun _ => ⟨fun _ => e, by simp [hm], by simp [hm]⟩⟩
  · exact ⟨fun h => absurd (of_decide_eq_true ha) h, fun _ => ⟨by simp [hm], fun _ _ _ => e, by simp [hp, ht]⟩⟩
  · refine ⟨fun h => absurd (of_decide_eq_true ha) h, fun _ => ⟨by simp [hm], fun _ hp ht => ?_, fun _ _ => ⟨_, e, ?_⟩⟩⟩
    · cases (hx hp).symm.trans ht
    · exact (stored_storesBytes s ea bytes hm).congr hf

/-- Byte `k` of the lower halfword of a word is byte `k` of the word (R41). -/
theorem bytesOfHalf_getD (w : Word) {k : Nat} (hk : k < 2) :
    (bytesOfHalf (w.extractLsb' 0 16)).getD k 0 = w.extractLsb' (8 * k) 8 := by
  interval_cases k
  · exact BitVec.extractLsb'_extractLsb'_of_le (by decide)
  · exact BitVec.extractLsb'_extractLsb'_of_le (by decide)

/-- Settles O26: one byte is always aligned. -/
theorem byteStore : Obligations.ByteStore := by
  intro rd rs off s
  have hbyte : ∀ k, k < 1 → [(s.readReg rs).extractLsb' 0 8].getD k 0 = (s.readReg rs).extractLsb' (8 * k) 8 := by
    intro k hk
    obtain rfl : k = 0 := by omega
    rfl
  obtain ⟨_, haligned⟩ := memWrite_stores (ea := effectiveAddress rd off s) (bytes := [_]) (s := s) hbyte
  exact ⟨fun p => decode_encode p (.sb rd rs off), rfl, haligned (Nat.mod_one _)⟩

/-- Settles O27: the stored bytes are the two low bytes of the word in the data register. -/
theorem halfwordStore : Obligations.HalfwordStore :=
  fun rd rs off _ => ⟨fun p => decode_encode p (.sh rd rs off), rfl, memWrite_stores fun _ hk => bytesOfHalf_getD _ hk⟩

/-- Settles O28: the stored bytes are the four bytes of the word in the data register. -/
theorem wordStore : Obligations.WordStore :=
  fun rd rs off _ => ⟨fun p => decode_encode p (.sw rd rs off), rfl, memWrite_stores fun _ hk => bytesOfWord_getD _ hk⟩

end Sys2Proof.Machine

/-! SUPPORT. Jumps, calls and branches, with the pseudo-instructions BEQZ, BNEZ, RET and NOP: the statements of
44_control_transfer.md (R170 to R186) and NOP of 45_system.md (R191). -/

namespace Sys2Proof.Machine

/-! ### The fetch at a transfer's target (R47, R51, R186) -/

/-- Outside `MEM_MAP` no byte is there. -/
theorem byteAt_eq_none_of_not_isMapped {s : State} {a : Nat} (h : isMapped s.platform a = false) : s.byteAt a = none :=
  if_neg (by simp [h])

/-- A running CPU whose `pc` is aligned and outside `MEM_MAP` stops on the fetch of its first byte. -/
theorem step_of_pc_not_isMapped {s : State} (hh : s.halted = false) (ha : s.pc.toNat % 4 = 0)
    (hm : isMapped s.platform s.pc.toNat = false) : step s = .fault (.fetchFault s.pc) := by
  obtain ⟨_, hmissing, _⟩ := fetchFaults s hh
  exact hmissing ha ⟨0, by decide, byteAt_eq_none_of_not_isMapped hm⟩

/-! ### What the shared operations of control transfer do -/

/-- Four times a 26-bit constant fits 32 bits, so the shift loses nothing (R83). -/
theorem callTarget_eq_ofNat (c : BitVec 26) : callTarget c = BitVec.ofNat 32 (c.toNat * 4) := by
  refine BitVec.eq_of_toNat_eq ?_
  rw [callTarget, BitVec.toNat_shiftLeft, BitVec.toNat_setWidth, BitVec.toNat_ofNat, Nat.shiftLeft_eq]
  omega

/-- What `branchIf` does with a test that decides `c`, in the terms of `Safety`. -/
theorem branchIf_branchesOn {c : Prop} {test : Bool} (h : test = true ↔ c) (off : Half) (s : State) :
    BranchesOn (branchIf test off s) s c off := by
  obtain ⟨t, e, hjump⟩ := branchIf_spec test off s
  refine ⟨t, e, fun hc => ?taken, fun hc => ?notTaken⟩
  case taken => rwa [if_pos (h.mpr hc)] at hjump
  case notTaken => rwa [if_neg (mt h.mp hc)] at hjump

/-! ### The statements about jumps and branches -/

/-- Settles O29: the next step fetches at the register's value, in a CPU that still runs under the same address map. -/
theorem jrJumpsToRegister : Obligations.JrJumpsToRegister := by
  intro rd s
  refine ⟨fun p => decode_encode p (.jr rd), s.jump (s.readReg rd), rfl, jump_onlyJumps s _, ?misaligned, ?unmapped⟩
  case misaligned => exact fun hh hodd => step_of_fetch_error hh (fetch_misaligned hodd)
  case unmapped => exact fun hh ha hm => step_of_pc_not_isMapped hh ha hm

/-- Settles O30: the jump leaves the written R31 as it is, and R31 is not R0. -/
theorem callSavesReturnAddress : Obligations.CallSavesReturnAddress := by
  intro c s
  refine ⟨fun p => decode_encode p (.call c), (s.writeReg 31 (s.pc + 4)).jump (callTarget c), rfl, ?link, ?target,
    ?registers, ?memory, ?system⟩
  case link => rw [readReg_jump, readReg_writeReg_same, if_neg (by decide)]
  case target => exact callTarget_eq_ofNat c
  case registers => exact fun r hr => by rw [readReg_jump, readReg_writeReg_other s _ hr]
  case memory => exact fun a => by rw [byteAt_jump, byteAt_writeReg]
  case system => simp [SameSystem]

/-- Settles O31. -/
theorem bBranchesRelative : Obligations.BBranchesRelative :=
  fun off s => ⟨fun p => decode_encode p (.b off), s.jump (farBranchTarget s.pc off), rfl, jump_onlyJumps s _⟩

/-- Settles O32: `condEq` and `condNe` decide the two conditions. -/
theorem equalityBranches : Obligations.EqualityBranches :=
  fun rd rs off s =>
    ⟨fun p => ⟨decode_encode p (.beq rd rs off), decode_encode p (.bne rd rs off)⟩,
      branchIf_branchesOn decide_eq_true_iff off s, branchIf_branchesOn decide_eq_true_iff off s⟩

/-- Settles O33: the four signed tests decide the four comparisons of the signed readings. -/
theorem signedBranches : Obligations.SignedBranches :=
  fun rd rs off s =>
    ⟨fun p => ⟨decode_encode p (.bge rd rs off), decode_encode p (.bgt rd rs off), decode_encode p (.ble rd rs off),
        decode_encode p (.blt rd rs off)⟩,
      branchIf_branchesOn decide_eq_true_iff off s, branchIf_branchesOn decide_eq_true_iff off s,
      branchIf_branchesOn decide_eq_true_iff off s, branchIf_branchesOn decide_eq_true_iff off s⟩

/-- Settles O34: the four unsigned tests decide the four comparisons of the unsigned readings. -/
theorem unsignedBranches : Obligations.UnsignedBranches :=
  fun rd rs off s =>
    ⟨fun p => ⟨decode_encode p (.bgeu rd rs off), decode_encode p (.bgtu rd rs off), decode_encode p (.bleu rd rs off),
        decode_encode p (.bltu rd rs off)⟩,
      branchIf_branchesOn decide_eq_true_iff off s, branchIf_branchesOn decide_eq_true_iff off s,
      branchIf_branchesOn decide_eq_true_iff off s, branchIf_branchesOn decide_eq_true_iff off s⟩

/-! ### Pseudo-instructions of one word that transfer or do nothing (R91, R174, R176, R185, R191) -/

/-- A pseudo-instruction of one instruction has that instruction's effect. -/
theorem execPseudo_of_expand {q : Pseudo} {i : Instr} (h : expand q = [i]) (s : State) : execPseudo q s = exec i s := by
  rw [execPseudo, h, execSeq_singleton]

/-- A result written to R0 is lost, so only `pc` has changed. -/
theorem WritesReg.onlyJumps_of_zero {s t : State} {v : Word} (h : WritesReg s t 0 v) : OnlyJumps s t (s.pc + 4) := by
  obtain ⟨_, hregs, hmem, hsys, hpc⟩ := h
  refine ⟨hpc, fun r => ?_, hmem, hsys⟩
  by_cases hr : r = 0
  · rw [hr, readReg_zero, readReg_zero]
  · exact hregs r hr

/-- Settles O42: BEQZ and BNEZ are BEQ and BNE against R0, which reads as zero; RET is JR of R31; NOP is an ADD into R0. -/
theorem transferPseudosAndNop : Obligations.TransferPseudosAndNop := by
  intro rd off s
  obtain ⟨_, hbeq, hbne⟩ := equalityBranches rd 0 off s
  obtain ⟨_, t, hjr, hret, _⟩ := jrJumpsToRegister 31 s
  obtain ⟨_, u, hadd, hnop⟩ := addWritesSum 0 0 0 s
  rw [readReg_zero] at hbeq hbne
  refine ⟨rfl, rfl, rfl, rfl, ?beqz, ?bnez, ⟨t, ?ret, hret⟩, ⟨u, ?nop, hnop.onlyJumps_of_zero⟩, by decide⟩
  case beqz => rwa [execPseudo_of_expand rfl]
  case bnez => rwa [execPseudo_of_expand rfl]
  case ret => rwa [execPseudo_of_expand rfl]
  case nop => rwa [execPseudo_of_expand rfl]

end Sys2Proof.Machine

/-! SUPPORT. ERET and HALT: the statements of 45_system.md (R190, R192). -/

namespace Sys2Proof.Machine

/-! ### The words of format N (R77, R86) -/

theorem encode_eret : encode .eret = 0xF8000000 := by decide

theorem encode_halt : encode .halt = 0xFC000000 := by decide

/-! ### What ERET does in either case of `epc` -/

/-- With a saved address ERET is the transfer to it, whatever saved it. -/
theorem exec_eret_of_saved {s : State} {a : Word} (h : s.epc = some a) : exec .eret s = .next (s.jump a) := by
  rcases returnFromException_cases s with ⟨b, hb, e⟩ | ⟨hnone, _⟩
  · obtain rfl : a = b := Option.some.inj (h.symm.trans hb)
    exact e
  · cases h.symm.trans hnone

theorem exec_eret_of_unwritten {s : State} (h : s.epc = none) : exec .eret s = .fault .eretWithoutException := by
  rcases returnFromException_cases s with ⟨a, hsome, _⟩ | ⟨_, e⟩
  · cases h.symm.trans hsome
  · exact e

/-! ### The statements about ERET and HALT -/

/-- Settles O35: the two cases of `epc` are those of R190. -/
theorem eretResumesSavedAddress : Obligations.EretResumesSavedAddress := by
  intro s
  refine ⟨fun p => encode_eret ▸ decode_encode p .eret, fun a ha => ?saved, exec_eret_of_unwritten⟩
  case saved => exact ⟨s.jump a, exec_eret_of_saved ha, jump_onlyJumps s a⟩

/-- Settles O36: `assertHalt` writes the halt line alone, and a CPU whose halt line is set takes no step. -/
theorem haltAssertsHaltLine : Obligations.HaltAssertsHaltLine := by
  intro s
  exact ⟨fun p => encode_halt ▸ decode_encode p .halt, s.assertHalt, rfl, assertHalt_halted s, assertHalt_pc s,
    readReg_assertHalt s, byteAt_assertHalt s, assertHalt_epc s, assertHalt_platform s,
    haltedCpuTakesNoStep s.assertHalt (assertHalt_halted s)⟩

end Sys2Proof.Machine

/-! SUPPORT. Faults, refusals, and exception entry with ERET: the statements of 60_exceptions.md (R200 to R209). -/

namespace Sys2Proof.Machine

/-! ### The instructions that access data (20_memory.md R48) -/

/-- The bytes an instruction stores are its one data access. -/
theorem accessOf_of_storeRange {i : Instr} {s : State} {x : Word × Nat} (h : storeRange i s = some x) :
    accessOf i s = some x := by
  cases i with
  | sb | sh | sw => exact h
  | _ => cases h

/-- An instruction that by R201 cannot stop accesses no data. -/
theorem accessOf_of_cannotStop {i : Instr} (h : cannotStop i = true) (s : State) : accessOf i s = none := by
  cases i with
  | lb | lbu | lh | lhu | lw | sb | sh | sw => cases h
  | _ => rfl

/-! ### Every answer of an instruction (R201, rows 6 to 9; 20_memory.md R56) -/

/-- What an instruction may answer: a next state, or one of the stops that R201 and R56 list, with its reason. `Effect` says what
the next state is; this says why there is none. -/
inductive Answers (i : Instr) (s : State) : Result → Prop where
  | next (t : State) : Answers i s (.next t)
  | zeroDivisor (rd rs rt : Reg) (hi : i = .divu rd rs rt ∨ i = .div rd rs rt) (hz : s.readReg rt = 0) :
      Answers i s (.fault .divideByZero)
  | noSavedAddress (hi : i = .eret) (he : s.epc = none) : Answers i s (.fault .eretWithoutException)
  | misaligned (ea : Word) (n : Nat) (hi : accessOf i s = some (ea, n)) (ha : ea.toNat % n ≠ 0) :
      Answers i s (.fault (.misalignedData ea))
  | absent (ea : Word) (n : Nat) (hi : accessOf i s = some (ea, n)) (ha : ea.toNat % n = 0)
      (hb : ∃ k, k < n ∧ s.byteAt (ea.toNat + k) = none) : Answers i s (.fault (.accessFault ea))
  | programText (ea : Word) (n : Nat) (hi : storeRange i s = some (ea, n)) (hp : s.platform.smcPolicy = .refuse)
      (ht : ∃ k, k < n ∧ isText s.platform (ea.toNat + k) = true) : Answers i s (.refused (.storeToProgramText ea))

theorem Answers.ofDivide {i : Instr} {s : State} {rd rs rt : Reg} {v : Word × Word}
    (hi : i = .divu rd rs rt ∨ i = .div rd rs rt) : Answers i s (divideBy rd (s.readReg rt) v s) := by
  rcases divideBy_cases rd (s.readReg rt) v s with ⟨hz, e⟩ | ⟨_, e⟩
  · rw [e]; exact .zeroDivisor rd rs rt hi hz
  · rw [e]; exact .next _

section Accesses
variable {i : Instr} {s : State} {r : Result} {rd : Reg} {ea : Word} {n : Nat}

/-- A load whose bytes are all there completes, as nothing else is asked of an aligned address. -/
theorem Answers.ofAlignedLoad {value : (Nat → Byte) → Word} (hi : accessOf i s = some (ea, n)) (ha : ea.toNat % n = 0)
    (h : LoadsOrAccessFault r s rd ea n value) : Answers i s r := by
  obtain ⟨habsent, hpresent⟩ := h
  by_cases hb : ∃ k, k < n ∧ s.byteAt (ea.toNat + k) = none
  · rw [habsent hb]; exact .absent ea n hi ha hb
  · have hbytes : ∀ k, k < n → s.byteAt (ea.toNat + k) = some ((s.byteAt (ea.toNat + k)).getD 0) := fun k hk => by
      obtain ⟨b, hsome⟩ := Option.ne_none_iff_exists'.mp fun hnone => hb ⟨k, hk, hnone⟩
      rw [hsome, Option.getD_some]
    obtain ⟨t, e, _⟩ := hpresent _ hbytes
    rw [e]; exact .next t

theorem Answers.ofLoad {value : (Nat → Byte) → Word} (hi : accessOf i s = some (ea, n))
    (h : LoadsOrStops r s rd ea n value) : Answers i s r := by
  obtain ⟨hmisaligned, haligned⟩ := h
  by_cases ha : ea.toNat % n = 0
  · exact .ofAlignedLoad hi ha (haligned ha)
  · rw [hmisaligned ha]; exact .misaligned ea n hi ha

/-- A store asks that its addresses be mapped, where a load asks for their bytes; an address outside `MEM_MAP` has none. -/
theorem Answers.ofAlignedStore {bytes : Nat → Byte} (hi : storeRange i s = some (ea, n)) (ha : ea.toNat % n = 0)
    (h : StoresOrAccessFault r s ea n bytes) : Answers i s r := by
  obtain ⟨hunmapped, hrefused, hstored⟩ := h
  by_cases hm : ∃ k, k < n ∧ isMapped s.platform (ea.toNat + k) = false
  · obtain ⟨k, hk, hnot⟩ := hm
    rw [hunmapped ⟨k, hk, hnot⟩]
    exact .absent ea n (accessOf_of_storeRange hi) ha ⟨k, hk, byteAt_eq_none_of_not_isMapped hnot⟩
  have hmapped : ∀ k, k < n → isMapped s.platform (ea.toNat + k) = true := by simpa using hm
  by_cases ht : s.platform.smcPolicy = .refuse ∧ ∃ k, k < n ∧ isText s.platform (ea.toNat + k) = true
  · obtain ⟨hp, htext⟩ := ht
    rw [hrefused hmapped hp htext]
    exact .programText ea n hi hp htext
  · obtain ⟨t, e, _⟩ := hstored hmapped (by simpa using ht)
    rw [e]; exact .next t

theorem Answers.ofStore {bytes : Nat → Byte} (hi : storeRange i s = some (ea, n))
    (h : StoresOrStops r s ea n bytes) : Answers i s r := by
  obtain ⟨hmisaligned, haligned⟩ := h
  by_cases ha : ea.toNat % n = 0
  · exact .ofAlignedStore hi ha (haligned ha)
  · rw [hmisaligned ha]; exact .misaligned ea n (accessOf_of_storeRange hi) ha

end Accesses

/-- Every answer of every instruction: the loads and the stores by the statements of 43_load_store.md, DIVU, DIV and ERET by their
one test, and all the others complete. -/
theorem exec_answers (i : Instr) (s : State) : Answers i s (exec i s) := by
  cases i with
  | divu rd rs rt => exact .ofDivide (.inl rfl)
  | div rd rs rt => exact .ofDivide (.inr rfl)
  | eret =>
    cases he : s.epc with
    | some a => rw [exec_eret_of_saved he]; exact .next _
    | none => rw [exec_eret_of_unwritten he]; exact .noSavedAddress rfl he
  | lb rd rs off =>
    obtain ⟨_, hlb, _⟩ := byteLoads rd rs off s
    exact .ofAlignedLoad rfl (Nat.mod_one _) hlb
  | lbu rd rs off =>
    obtain ⟨_, _, hlbu⟩ := byteLoads rd rs off s
    exact .ofAlignedLoad rfl (Nat.mod_one _) hlbu
  | lh rd rs off =>
    obtain ⟨_, hlh, _⟩ := halfwordLoads rd rs off s
    exact .ofLoad rfl hlh
  | lhu rd rs off =>
    obtain ⟨_, _, hlhu⟩ := halfwordLoads rd rs off s
    exact .ofLoad rfl hlhu
  | lw rd rs off =>
    obtain ⟨_, hlw⟩ := wordLoad rd rs off s
    exact .ofLoad rfl hlw
  | sb rd rs off =>
    obtain ⟨_, _, hsb⟩ := byteStore rd rs off s
    exact .ofAlignedStore rfl (Nat.mod_one _) hsb
  | sh rd rs off =>
    obtain ⟨_, _, hsh⟩ := halfwordStore rd rs off s
    exact .ofStore rfl hsh
  | sw rd rs off =>
    obtain ⟨_, _, hsw⟩ := wordStore rd rs off s
    exact .ofStore rfl hsw
  | _ => exact .next _

/-! ### The statements about stops -/

/-- Settles O50: each stop of `Answers` is its clause of the list. -/
theorem stopsAreTheListedOnes : Obligations.StopsAreTheListedOnes := by
  intro i s
  have hanswer := exec_answers i s
  refine ⟨fun f h => ?fault, fun r h => ?refusal⟩
  case fault =>
    rw [h] at hanswer
    cases hanswer with
    | zeroDivisor rd rs rt hi hz => exact .inl ⟨rfl, rd, rs, rt, hi, hz⟩
    | noSavedAddress hi he => exact .inr (.inl ⟨rfl, hi, he⟩)
    | misaligned ea n hi ha => exact .inr (.inr (.inl ⟨ea, n, hi, rfl, ha⟩))
    | absent ea n hi ha hb => exact .inr (.inr (.inr ⟨ea, n, hi, rfl, ha, hb⟩))
  case refusal =>
    rw [h] at hanswer
    cases hanswer with
    | programText ea n hi hp ht => exact ⟨ea, n, hi, rfl, hp, ht⟩

/-- Settles O51: every stop of `Answers` names DIVU, DIV, ERET or an instruction that accesses data. -/
theorem otherInstructionsAlwaysComplete : Obligations.OtherInstructionsAlwaysComplete := by
  intro i s hc
  have hno := accessOf_of_cannotStop hc s
  have hanswer := exec_answers i s
  generalize exec i s = r at hanswer ⊢
  cases hanswer with
  | next t => exact ⟨t, rfl⟩
  | zeroDivisor rd rs rt hi _ =>
    rcases hi with rfl | rfl
    · cases hc
    · cases hc
  | noSavedAddress hi _ => subst hi; cases hc
  | misaligned ea n hi _ => cases hno.symm.trans hi
  | absent ea n hi _ _ => cases hno.symm.trans hi
  | programText ea n hi _ _ => cases hno.symm.trans (accessOf_of_storeRange hi)

/-! ### Exception entry and return (R200, R204, R207) -/

/-- Settles O37: entry writes `epc` and `pc` alone, and ERET resumes at the address in `epc` (O35), whatever ran in between. -/
theorem exceptionEntryAndReturn : Obligations.ExceptionEntryAndReturn := by
  intro saved handler s u
  refine ⟨enterException_epc saved handler s, enterException_pc saved handler s, enterException_halted saved handler s,
    enterException_platform saved handler s, readReg_enterException saved handler s, ?memory, fun hu => ?resumes⟩
  case memory => exact byteAt_congr (enterException_mem saved handler s) (enterException_platform saved handler s)
  case resumes =>
    obtain ⟨_, hsaved, _⟩ := eretResumesSavedAddress u
    exact hsaved saved (hu.trans (enterException_epc saved handler s))

end Sys2Proof.Machine

/-! SUPPORT. Reset, and how a run ends: the statements of 70_reset_and_hazards.md (R230, R231, R241). -/

namespace Sys2Proof.Machine

/-! ### The step that sets the halt line (10_state.md R29) -/

/-- A step starts from a CPU that is running, so a halt line that is set after it was set by it, which HALT alone does. -/
theorem decode_eq_halt_of_step_to_halted {s t : State} (h : step s = .next t) (ht : t.halted = true) :
    s.halted = false ∧ ∃ w, fetch s = .ok w ∧ decode s.platform.reservedNonzero w = .ok .halt := by
  obtain ⟨hs, w, i, hfetch, hdecode, hexec⟩ := step_next h
  obtain ⟨_, _, hline⟩ := onlyHaltTouchesSystemState i s t hexec
  obtain rfl : i = .halt := by simpa [hs, ht] using hline
  exact ⟨hs, w, hfetch, hdecode⟩

/-! ### Runs that end -/

theorem runFor_of_halted {s : State} (h : s.halted = true) (n : Nat) : runFor n s = .halted s := by
  cases n with
  | zero => exact if_pos h
  | succ n => exact if_pos h

theorem runFor_zero_of_running {s : State} (h : s.halted = false) : runFor 0 s = .running s := by
  simp [runFor, h]

/-- A run from a running state that ends in `halted` is a step and then a run that ends in the same state. -/
theorem runFor_succ_halted {n : Nat} {s t : State} (hs : s.halted = false) (h : runFor (n + 1) s = .halted t) :
    ∃ u, step s = .next u ∧ runFor n u = .halted t := by
  cases hstep : step s with
  | next u => exact ⟨u, rfl, by simpa [runFor, hs, hstep] using h⟩
  | fault f => simp [runFor, hs, hstep] at h
  | refused r => simp [runFor, hs, hstep] at h

/-- The converse of `run_succ_next`. -/
theorem run_succ_of_step {n : Nat} {s t u : State} (h : step s = .next u)
    (hrun : Host.Core.run Sys2Proof.core n u = .next t) : Host.Core.run Sys2Proof.core (n + 1) s = .next t := by
  have hcore : Sys2Proof.core.step s = .next u := h
  simpa only [Host.Core.run, hcore] using hrun

/-- Settles O58, by induction on the steps allowed: either the first step already sets the halt line, and then the run ends in
its next state, or the run goes on from a running state. -/
theorem runEndsOnlyByHalt : Obligations.RunEndsOnlyByHalt := by
  intro n
  induction n with
  | zero =>
    intro s t hs h
    cases (runFor_zero_of_running hs).symm.trans h
  | succ n ih =>
    intro s t hs h
    obtain ⟨u, hstep, hrest⟩ := runFor_succ_halted hs h
    cases hu : u.halted with
    | true =>
      obtain rfl : u = t := RunEnd.halted.inj ((runFor_of_halted hu n).symm.trans hrest)
      obtain ⟨_, w, hfetch, hdecode⟩ := decode_eq_halt_of_step_to_halted hstep hu
      exact ⟨0, s, w, n.succ_pos, rfl, hs, hfetch, hdecode, hstep⟩
    | false =>
      obtain ⟨k, v, w, hk, hrun, hlast⟩ := ih u t hu hrest
      exact ⟨k + 1, v, w, Nat.succ_lt_succ hk, run_succ_of_step hstep hrun, hlast⟩

/-! ### The refusal `halted` (R27, R29) -/

/-- What a step can do when it is refused: the CPU is halted, or the instruction it fetched is refused. -/
theorem step_refused {s : State} {r : Refusal} (h : step s = .refused r) :
    (s.halted = true ∧ r = .halted) ∨ (s.halted = false ∧ ∃ i, exec i s = .refused r) := by
  cases hs : s.halted with
  | true => exact .inl ⟨rfl, Host.Outcome.refused.inj (h.symm.trans (haltedCpuTakesNoStep s hs))⟩
  | false =>
    refine .inr ⟨rfl, ?_⟩
    cases hf : fetch s with
    | error f => cases (step_of_fetch_error hs hf).symm.trans h
    | ok w =>
      cases hd : decode s.platform.reservedNonzero w with
      | error e => cases e <;> simp [step, hs, hf, hd] at h
      | ok i => exact ⟨i, (step_of_fetch hs hf hd).symm.trans h⟩

/-- No instruction raises the refusal `halted`: the only refusal of an instruction is that of a store to program text. -/
theorem exec_ne_refused_halted (i : Instr) (s : State) : exec i s ≠ .refused .halted := by
  intro h
  obtain ⟨_, hrefusal⟩ := stopsAreTheListedOnes i s
  obtain ⟨_, _, _, hr, _⟩ := hrefusal .halted h
  cases hr

theorem step_eq_refused_halted_iff (s : State) : step s = .refused .halted ↔ s.halted = true := by
  refine ⟨fun h => ?_, haltedCpuTakesNoStep s⟩
  rcases step_refused h with ⟨hs, _⟩ | ⟨_, i, hi⟩
  · exact hs
  · exact absurd hi (exec_ne_refused_halted i s)

/-! ### The statements about reset -/

/-- Settles O38: the fields are those `boot` writes, and a clear halt line excludes the refusal `halted`. -/
theorem resetClearsHaltAndStartsAtVector : Obligations.ResetClearsHaltAndStartsAtVector := by
  intro p vector image
  refine ⟨boot_halted p vector image, boot_pc p vector image, readReg_zero _, boot_epc p vector image,
    boot_mem p vector image, boot_platform p vector image, fun h => ?refusal⟩
  case refusal => cases (step_eq_refused_halted_iff _).mp h

/-- The four bytes at `RESET_PC` lie in the region of `MEM_MAP` that is marked program text (R231; log 2, log 3). -/
theorem reset_allText : allText State.reset.platform State.reset.pc.toNat 4 = true := by decide

/-- Settles O39: `State.reset` is a `boot` by definition, and its numbers are literals. -/
theorem resetStateMeetsItsConstraints : Obligations.ResetStateMeetsItsConstraints :=
  ⟨rfl, rfl, allText_iff.mp reset_allText, rfl, rfl⟩

end Sys2Proof.Machine
